-- ==== Sys2Proof/Word.lean ====
section
/-! DEFINITION. The plain words of ts-chip8 CORE (spec 00_scope R8, R9, R10): every value is an unsigned bit vector, bit 0 the
least significant; arithmetic on them wraps. -/

namespace Sys2Proof

/-- A memory cell, a general register, a timer (R8: `V_WIDTH`, `TIMER_WIDTH`). -/
abbrev Byte := BitVec 8

/-- `I`, `PC`, a stack entry, an opcode (R8: `I_WIDTH`, `PC_WIDTH`, `STACK_ENTRY_WIDTH`). -/
abbrev Word := BitVec 16

/-- A 4-bit opcode field; the number of a general register, the code of a key, the height of a sprite (R16). -/
abbrev Nibble := BitVec 4

/-- The 12-bit address immediate `nnn` (R16, R106). -/
abbrev Addr := BitVec 12

end Sys2Proof
end

