-- ==== Sys2Proof/Syntax.lean ====
section
/-! DEFINITION. The 34 instructions (30_encoding R110), one constructor a row of spec/opcode_table.json. Operands have the width of
their opcode field (R102 to R106), so an operand out of range cannot be written; `x`, `y` number general registers. -/

namespace Sys2Proof

inductive Instr where
  /-- `CLS`, `00E0` (R200). -/
  | cls
  /-- `RET`, `00EE` (R152). -/
  | ret
  /-- `JP nnn`, `1nnn` (R150). -/
  | jp (nnn : Addr)
  /-- `CALL nnn`, `2nnn` (R151). -/
  | call (nnn : Addr)
  /-- `SE Vx, nn`, `3xnn` (R161). -/
  | seImm (x : Nibble) (nn : Byte)
  /-- `SNE Vx, nn`, `4xnn` (R162). -/
  | sneImm (x : Nibble) (nn : Byte)
  /-- `SE Vx, Vy`, `5xy0` (R163). -/
  | seReg (x y : Nibble)
  /-- `LD Vx, nn`, `6xnn` (R172). -/
  | ldImm (x : Nibble) (nn : Byte)
  /-- `ADD Vx, nn`, `7xnn` (R173). -/
  | addImm (x : Nibble) (nn : Byte)
  /-- `LD Vx, Vy`, `8xy0` (R174). -/
  | ldReg (x y : Nibble)
  /-- `OR Vx, Vy`, `8xy1` (R175). -/
  | orReg (x y : Nibble)
  /-- `AND Vx, Vy`, `8xy2` (R176). -/
  | andReg (x y : Nibble)
  /-- `XOR Vx, Vy`, `8xy3` (R177). -/
  | xorReg (x y : Nibble)
  /-- `ADD Vx, Vy`, `8xy4` (R178). -/
  | addReg (x y : Nibble)
  /-- `SUB Vx, Vy`, `8xy5` (R179). -/
  | sub (x y : Nibble)
  /-- `SHR Vx`, `8xy6` (R180); `y` is decoded and not used (R116). -/
  | shr (x y : Nibble)
  /-- `SUBN Vx, Vy`, `8xy7` (R181). -/
  | subn (x y : Nibble)
  /-- `SHL Vx`, `8xyE` (R182); `y` is decoded and not used (R116). -/
  | shl (x y : Nibble)
  /-- `SNE Vx, Vy`, `9xy0` (R164). -/
  | sneReg (x y : Nibble)
  /-- `LD I, nnn`, `Annn` (R190). -/
  | ldI (nnn : Addr)
  /-- `JP V0, nnn`, `Bnnn` (R153). -/
  | jpV0 (nnn : Addr)
  /-- `RND Vx, nn`, `Cxnn` (R186). -/
  | rnd (x : Nibble) (nn : Byte)
  /-- `DRW Vx, Vy, n`, `Dxyn` (R201). -/
  | drw (x y n : Nibble)
  /-- `SKP Vx`, `Ex9E` (R211). -/
  | skp (x : Nibble)
  /-- `SKNP Vx`, `ExA1` (R215). -/
  | sknp (x : Nibble)
  /-- `LD Vx, DT`, `Fx07` (R216). -/
  | ldVxDt (x : Nibble)
  /-- `LD Vx, K`, `Fx0A` (R212). -/
  | ldVxK (x : Nibble)
  /-- `LD DT, Vx`, `Fx15` (R217). -/
  | ldDtVx (x : Nibble)
  /-- `LD ST, Vx`, `Fx18` (R218). -/
  | ldStVx (x : Nibble)
  /-- `ADD I, Vx`, `Fx1E` (R191). -/
  | addI (x : Nibble)
  /-- `LD F, Vx`, `Fx29` (R192). -/
  | ldF (x : Nibble)
  /-- `LD B, Vx`, `Fx33` (R193). -/
  | ldB (x : Nibble)
  /-- `LD [I], Vx`, `Fx55` (R194). -/
  | storeRegs (x : Nibble)
  /-- `LD Vx, [I]`, `Fx65` (R195). -/
  | loadRegs (x : Nibble)
  deriving DecidableEq, Repr

end Sys2Proof
end

