-- ==== Sys2Proof/WellFormed.lean ====
section
/-! DEFINITION. Which opcodes are well formed (30_encoding R110, R112, R113). An `Instr` carries operands of exactly their field's
width, every value of which is legal (R113), so the checks are on opcodes: the map of R110 as data, and the sub-fields R112
requires, family by family. -/

namespace Sys2Proof

/-- One row of the opcode map: `op` selects the row when `op &&& mask = code` (R110). -/
structure OpcodeRow where
  mask : Word
  code : Word
  deriving DecidableEq, Repr

/-- `op` selects the row (R110). -/
def OpcodeRow.selects (r : OpcodeRow) (op : Word) : Bool := op &&& r.mask == r.code

/-- The opcode map, families 0 to 7 (R110). -/
def opcodeMapLow : List OpcodeRow :=
  [⟨0xFFFF, 0x00E0⟩, -- CLS
   ⟨0xFFFF, 0x00EE⟩, -- RET
   ⟨0xF000, 0x1000⟩, -- JP nnn
   ⟨0xF000, 0x2000⟩, -- CALL nnn
   ⟨0xF000, 0x3000⟩, -- SE Vx, nn
   ⟨0xF000, 0x4000⟩, -- SNE Vx, nn
   ⟨0xF00F, 0x5000⟩, -- SE Vx, Vy
   ⟨0xF000, 0x6000⟩, -- LD Vx, nn
   ⟨0xF000, 0x7000⟩] -- ADD Vx, nn

/-- The opcode map, families 8 to D (R110). -/
def opcodeMapMid : List OpcodeRow :=
  [⟨0xF00F, 0x8000⟩, -- LD Vx, Vy
   ⟨0xF00F, 0x8001⟩, -- OR Vx, Vy
   ⟨0xF00F, 0x8002⟩, -- AND Vx, Vy
   ⟨0xF00F, 0x8003⟩, -- XOR Vx, Vy
   ⟨0xF00F, 0x8004⟩, -- ADD Vx, Vy
   ⟨0xF00F, 0x8005⟩, -- SUB Vx, Vy
   ⟨0xF00F, 0x8006⟩, -- SHR Vx
   ⟨0xF00F, 0x8007⟩, -- SUBN Vx, Vy
   ⟨0xF00F, 0x800E⟩, -- SHL Vx
   ⟨0xF00F, 0x9000⟩, -- SNE Vx, Vy
   ⟨0xF000, 0xA000⟩, -- LD I, nnn
   ⟨0xF000, 0xB000⟩, -- JP V0, nnn
   ⟨0xF000, 0xC000⟩, -- RND Vx, nn
   ⟨0xF000, 0xD000⟩] -- DRW Vx, Vy, n

/-- The opcode map, families E and F (R110). -/
def opcodeMapHigh : List OpcodeRow :=
  [⟨0xF0FF, 0xE09E⟩, -- SKP Vx
   ⟨0xF0FF, 0xE0A1⟩, -- SKNP Vx
   ⟨0xF0FF, 0xF007⟩, -- LD Vx, DT
   ⟨0xF0FF, 0xF00A⟩, -- LD Vx, K
   ⟨0xF0FF, 0xF015⟩, -- LD DT, Vx
   ⟨0xF0FF, 0xF018⟩, -- LD ST, Vx
   ⟨0xF0FF, 0xF01E⟩, -- ADD I, Vx
   ⟨0xF0FF, 0xF029⟩, -- LD F, Vx
   ⟨0xF0FF, 0xF033⟩, -- LD B, Vx
   ⟨0xF0FF, 0xF055⟩, -- LD [I], Vx
   ⟨0xF0FF, 0xF065⟩] -- LD Vx, [I]

/-- The opcode map: 34 rows (R110). -/
def opcodeMap : List OpcodeRow := opcodeMapLow ++ opcodeMapMid ++ opcodeMapHigh

/-- The row of the opcode map an instruction stands for (R110). -/
def opcodeRow : Instr → OpcodeRow
  | .cls => ⟨0xFFFF, 0x00E0⟩
  | .ret => ⟨0xFFFF, 0x00EE⟩
  | .jp _ => ⟨0xF000, 0x1000⟩
  | .call _ => ⟨0xF000, 0x2000⟩
  | .seImm _ _ => ⟨0xF000, 0x3000⟩
  | .sneImm _ _ => ⟨0xF000, 0x4000⟩
  | .seReg _ _ => ⟨0xF00F, 0x5000⟩
  | .ldImm _ _ => ⟨0xF000, 0x6000⟩
  | .addImm _ _ => ⟨0xF000, 0x7000⟩
  | .ldReg _ _ => ⟨0xF00F, 0x8000⟩
  | .orReg _ _ => ⟨0xF00F, 0x8001⟩
  | .andReg _ _ => ⟨0xF00F, 0x8002⟩
  | .xorReg _ _ => ⟨0xF00F, 0x8003⟩
  | .addReg _ _ => ⟨0xF00F, 0x8004⟩
  | .sub _ _ => ⟨0xF00F, 0x8005⟩
  | .shr _ _ => ⟨0xF00F, 0x8006⟩
  | .subn _ _ => ⟨0xF00F, 0x8007⟩
  | .shl _ _ => ⟨0xF00F, 0x800E⟩
  | .sneReg _ _ => ⟨0xF00F, 0x9000⟩
  | .ldI _ => ⟨0xF000, 0xA000⟩
  | .jpV0 _ => ⟨0xF000, 0xB000⟩
  | .rnd _ _ => ⟨0xF000, 0xC000⟩
  | .drw _ _ _ => ⟨0xF000, 0xD000⟩
  | .skp _ => ⟨0xF0FF, 0xE09E⟩
  | .sknp _ => ⟨0xF0FF, 0xE0A1⟩
  | .ldVxDt _ => ⟨0xF0FF, 0xF007⟩
  | .ldVxK _ => ⟨0xF0FF, 0xF00A⟩
  | .ldDtVx _ => ⟨0xF0FF, 0xF015⟩
  | .ldStVx _ => ⟨0xF0FF, 0xF018⟩
  | .addI _ => ⟨0xF0FF, 0xF01E⟩
  | .ldF _ => ⟨0xF0FF, 0xF029⟩
  | .ldB _ => ⟨0xF0FF, 0xF033⟩
  | .storeRegs _ => ⟨0xF0FF, 0xF055⟩
  | .loadRegs _ => ⟨0xF0FF, 0xF065⟩

/-- The required sub-fields, family by family (R112, decision D5): all twelve low bits in family 0, `n` in families 5, 8 and 9,
`nn` in families E and F; the other families have no illegal encoding (R113). -/
def wellFormedOpcode (op : Word) : Bool :=
  let low4 : Nat := op.toNat % 0x10
  let low8 : Nat := op.toNat % 0x100
  let low12 : Nat := op.toNat % 0x1000
  match op.toNat / 0x1000 with
  | 0x0 => low12 == 0x0E0 || low12 == 0x0EE
  | 0x5 => low4 == 0x0
  | 0x8 => low4 ≤ 0x7 || low4 == 0xE
  | 0x9 => low4 == 0x0
  | 0xE => low8 == 0x9E || low8 == 0xA1
  | 0xF => low8 ∈ [0x07, 0x0A, 0x15, 0x18, 0x1E, 0x29, 0x33, 0x55, 0x65]
  | _ => true

end Sys2Proof
end

