-- ==== Sys2Proof/Decode.lean ====
section
/-! DEFINITION. The decoder (30_encoding R100 to R117), total on every opcode and on any bytes, and after it the encoder, written
from the same map. -/

namespace Sys2Proof

namespace Opcode

/-- `n1 = op[15:12]`, the family selector (R102). -/
def n1 (op : Word) : Nibble := op.extractLsb' 12 4

/-- `x = n2 = op[11:8]` (R103). -/
def x (op : Word) : Nibble := op.extractLsb' 8 4

/-- `y = n3 = op[7:4]` (R103). -/
def y (op : Word) : Nibble := op.extractLsb' 4 4

/-- `n = n4 = op[3:0]` (R104). -/
def n (op : Word) : Nibble := op.extractLsb' 0 4

/-- `nn = op[7:0]`, the low byte (R105). -/
def nn (op : Word) : Byte := op.extractLsb' 0 8

/-- `nnn = op[11:0]` (R106). -/
def nnn (op : Word) : Addr := op.extractLsb' 0 12

end Opcode

/-- The second level of family 0: the whole of `nnn` (R109, R112, R154). -/
def decodeFamily0 (op : Word) : Option Instr :=
  match Opcode.nnn op with
  | 0x0E0#12 => some .cls
  | 0x0EE#12 => some .ret
  | _ => none

/-- The second level of family 8: the function selector `n` (R104, R109). -/
def decodeFamily8 (op : Word) : Option Instr :=
  match Opcode.n op with
  | 0x0#4 => some (.ldReg (Opcode.x op) (Opcode.y op))
  | 0x1#4 => some (.orReg (Opcode.x op) (Opcode.y op))
  | 0x2#4 => some (.andReg (Opcode.x op) (Opcode.y op))
  | 0x3#4 => some (.xorReg (Opcode.x op) (Opcode.y op))
  | 0x4#4 => some (.addReg (Opcode.x op) (Opcode.y op))
  | 0x5#4 => some (.sub (Opcode.x op) (Opcode.y op))
  | 0x6#4 => some (.shr (Opcode.x op) (Opcode.y op))
  | 0x7#4 => some (.subn (Opcode.x op) (Opcode.y op))
  | 0xE#4 => some (.shl (Opcode.x op) (Opcode.y op))
  | _ => none

/-- The second level of family E: the function selector `nn` (R105, R109). -/
def decodeFamilyE (op : Word) : Option Instr :=
  match Opcode.nn op with
  | 0x9E#8 => some (.skp (Opcode.x op))
  | 0xA1#8 => some (.sknp (Opcode.x op))
  | _ => none

/-- The second level of family F: the function selector `nn` (R105, R109). -/
def decodeFamilyF (op : Word) : Option Instr :=
  match Opcode.nn op with
  | 0x07#8 => some (.ldVxDt (Opcode.x op))
  | 0x0A#8 => some (.ldVxK (Opcode.x op))
  | 0x15#8 => some (.ldDtVx (Opcode.x op))
  | 0x18#8 => some (.ldStVx (Opcode.x op))
  | 0x1E#8 => some (.addI (Opcode.x op))
  | 0x29#8 => some (.ldF (Opcode.x op))
  | 0x33#8 => some (.ldB (Opcode.x op))
  | 0x55#8 => some (.storeRegs (Opcode.x op))
  | 0x65#8 => some (.loadRegs (Opcode.x op))
  | _ => none

/-- The decoder (R109, R117): one of the 34 instruction forms with its fields, or `none` for `Illegal`. Families 5 and 9 check
`n = 0` (R112). -/
def decode (op : Word) : Option Instr :=
  match Opcode.n1 op with
  | 0x0#4 => decodeFamily0 op
  | 0x1#4 => some (.jp (Opcode.nnn op))
  | 0x2#4 => some (.call (Opcode.nnn op))
  | 0x3#4 => some (.seImm (Opcode.x op) (Opcode.nn op))
  | 0x4#4 => some (.sneImm (Opcode.x op) (Opcode.nn op))
  | 0x5#4 => if Opcode.n op = 0#4 then some (.seReg (Opcode.x op) (Opcode.y op)) else none
  | 0x6#4 => some (.ldImm (Opcode.x op) (Opcode.nn op))
  | 0x7#4 => some (.addImm (Opcode.x op) (Opcode.nn op))
  | 0x8#4 => decodeFamily8 op
  | 0x9#4 => if Opcode.n op = 0#4 then some (.sneReg (Opcode.x op) (Opcode.y op)) else none
  | 0xA#4 => some (.ldI (Opcode.nnn op))
  | 0xB#4 => some (.jpV0 (Opcode.nnn op))
  | 0xC#4 => some (.rnd (Opcode.x op) (Opcode.nn op))
  | 0xD#4 => some (.drw (Opcode.x op) (Opcode.y op) (Opcode.n op))
  | 0xE#4 => decodeFamilyE op
  | 0xF#4 => decodeFamilyF op
  | _ => none

/-- Why bytes are not an instruction. -/
inductive DecodeReject where
  /-- The opcode is outside the map (R112, R113). -/
  | illegalInstruction (op : Word)
  /-- Fewer than the two bytes of an instruction (R100). -/
  | truncated
  deriving DecidableEq, Repr

/-- The opcode two bytes make, `hi << 8 | lo`: the byte at the lower address is the high byte (R73, R76). -/
def opcodeOfBytes (hi lo : Byte) : Word := (hi.zeroExtend 16 <<< 8) ||| lo.zeroExtend 16

/-- The decoder on bytes, in address order: an instruction and the bytes after it, or a rejection by name. -/
def decodeBytes : List Byte → Except DecodeReject (Instr × List Byte)
  | hi :: lo :: rest =>
    match decode (opcodeOfBytes hi lo) with
    | some i => .ok (i, rest)
    | none => .error (.illegalInstruction (opcodeOfBytes hi lo))
  | _ => .error .truncated

/-- Format `NNN` (R108). -/
def encodeNNN (n1 : Nibble) (nnn : Addr) : Word := (n1.zeroExtend 16 <<< 12) ||| nnn.zeroExtend 16

/-- Format `XNN`, and format `X` with its fixed low byte (R108). -/
def encodeXNN (n1 x : Nibble) (nn : Byte) : Word :=
  (n1.zeroExtend 16 <<< 12) ||| (x.zeroExtend 16 <<< 8) ||| nn.zeroExtend 16

/-- Format `XYN`, and format `XY` with its fixed low nibble (R108): `op = n1 << 12 | x << 8 | y << 4 | n` (R107). -/
def encodeXYN (n1 x y n : Nibble) : Word :=
  (n1.zeroExtend 16 <<< 12) ||| (x.zeroExtend 16 <<< 8) ||| (y.zeroExtend 16 <<< 4) ||| n.zeroExtend 16

/-- The encoder: the opcode of an instruction (R108, R110). -/
def encode : Instr → Word
  | .cls => 0x00E0#16
  | .ret => 0x00EE#16
  | .jp nnn => encodeNNN 0x1 nnn
  | .call nnn => encodeNNN 0x2 nnn
  | .seImm x nn => encodeXNN 0x3 x nn
  | .sneImm x nn => encodeXNN 0x4 x nn
  | .seReg x y => encodeXYN 0x5 x y 0x0
  | .ldImm x nn => encodeXNN 0x6 x nn
  | .addImm x nn => encodeXNN 0x7 x nn
  | .ldReg x y => encodeXYN 0x8 x y 0x0
  | .orReg x y => encodeXYN 0x8 x y 0x1
  | .andReg x y => encodeXYN 0x8 x y 0x2
  | .xorReg x y => encodeXYN 0x8 x y 0x3
  | .addReg x y => encodeXYN 0x8 x y 0x4
  | .sub x y => encodeXYN 0x8 x y 0x5
  | .shr x y => encodeXYN 0x8 x y 0x6
  | .subn x y => encodeXYN 0x8 x y 0x7
  | .shl x y => encodeXYN 0x8 x y 0xE
  | .sneReg x y => encodeXYN 0x9 x y 0x0
  | .ldI nnn => encodeNNN 0xA nnn
  | .jpV0 nnn => encodeNNN 0xB nnn
  | .rnd x nn => encodeXNN 0xC x nn
  | .drw x y n => encodeXYN 0xD x y n
  | .skp x => encodeXNN 0xE x 0x9E
  | .sknp x => encodeXNN 0xE x 0xA1
  | .ldVxDt x => encodeXNN 0xF x 0x07
  | .ldVxK x => encodeXNN 0xF x 0x0A
  | .ldDtVx x => encodeXNN 0xF x 0x15
  | .ldStVx x => encodeXNN 0xF x 0x18
  | .addI x => encodeXNN 0xF x 0x1E
  | .ldF x => encodeXNN 0xF x 0x29
  | .ldB x => encodeXNN 0xF x 0x33
  | .storeRegs x => encodeXNN 0xF x 0x55
  | .loadRegs x => encodeXNN 0xF x 0x65

/-- The high byte of an opcode, which stands at the lower address (R76). -/
def opcodeHigh (op : Word) : Byte := op.extractLsb' 8 8

/-- The low byte of an opcode, which stands at the next address (R76). -/
def opcodeLow (op : Word) : Byte := op.extractLsb' 0 8

/-- The instruction bytes in memory order: big-endian (R76). -/
def encodeBytes (i : Instr) : List Byte := [opcodeHigh (encode i), opcodeLow (encode i)]

/-- The opcode a row of spec/opcode_table.json numbers by `w`: the low `nbits` bits, the rest 0; there is one word an
instruction (R100), so the row's bit numbers are the opcode's own. -/
def tableOpcode (nbits w : Nat) : Word := BitVec.ofNat 16 (w % 2 ^ nbits)

/-- The instruction the decoder reads from the two bytes of that opcode, laid out as memory holds them. -/
def decodeTableWord (nbits w : Nat) : Option Instr :=
  match decodeBytes [opcodeHigh (tableOpcode nbits w), opcodeLow (tableOpcode nbits w)] with
  | .ok (i, _) => some i
  | .error _ => none

end Sys2Proof
end

