-- ==== Sys2Proof/Config.lean ====
section
/-! DEFINITION. What is fixed for this hardware (the parameters of 00_scope R8), what its environment can do (R18, R52), and the
free values: constants with no body, of which nothing can be proved but their type. -/

namespace Sys2Proof

namespace Config

/-- `MEM_SIZE` (R8): the cells are `0x000` .. `0xFFF`. -/
def memSize : Nat := 0x1000

/-- `FONT_BASE` (R8). -/
def fontBase : Nat := 0x050

/-- `FONT_END`, exclusive (R8). -/
def fontEnd : Nat := 0x0A0

/-- `PROGRAM_BASE` (R8): where an image is loaded by convention. -/
def programBase : Word := 0x200

/-- The greatest entry point `reset(entryAddress)` accepts: "two bytes must fit" (R292). -/
def lastEntry : Nat := 0xFFE

end Config

/-- What can happen next (R18): a move of the core's own, a trigger firing, a change of the key levels, a host command. -/
inductive Event where
  /-- The core takes the delivery that is due: the pending timer tick, else the pending execution tick (R232, R234, R235). -/
  | deliver
  /-- The core samples the keys for a suspended `LD Vx, K` (R213, R214). -/
  | keyProgress
  /-- The execution trigger is due (R229). -/
  | execFire
  /-- The 60 Hz trigger is due (R230). -/
  | timerFire
  /-- The keyboard drives these levels on `keys[15:0]` from now on (R210). -/
  | keys (levels : BitVec 16)
  /-- `power_on` (R290, R291). -/
  | powerOn
  /-- `cmd_load(start, bytes)` (R82). -/
  | cmdLoad (start : Word) (bytes : List Byte)
  /-- `cmd_reset(entry)` (R292). -/
  | cmdReset (entry : Word)
  /-- `cmd_start` (R226). -/
  | cmdStart
  /-- `cmd_stop` (R227). -/
  | cmdStop
  deriving DecidableEq, Repr, Inhabited

namespace Config

/-- FREE VALUE: what happens next when the state's agenda says nothing of it (R239: the events "may happen at any moment"). -/
opaque freeEvent : Nat → Event

/-- FREE VALUE: the byte on port `rnd[7:0]` at the `k`-th sampling (R186, decision D14: "a free input"). -/
opaque rnd : Nat → Byte

/-- FREE VALUE: the pixel the display shows at column, row after the `k`-th power-on and before the first `clear()`
(R205, R297: the source does not state it). -/
opaque powerOnPixel : Nat → Fin 64 → Fin 32 → Bool

end Config

end Sys2Proof
end

