-- ==== Sys2Proof/Machine/State.lean ====
section
/-! DEFINITION. The state of ts-chip8 CORE (10_state), as plain data: the architectural state R30 to R48, memory R51, the ports the
spec gives the block R56, the reference display R205, and the two fields of the model's own (`agenda`, `draws`). -/

namespace Sys2Proof.Machine

/-- The five fatal errors (R250), in the order of their codes 1 to 5. -/
inductive FatalError where
  | invalidAddress
  | illegalInstruction
  | stackOverflow
  | stackUnderflow
  | badMemoryAccess
  deriving DecidableEq, Repr

/-- `STATUS.HALT` (R43). -/
inductive Halt where
  | run
  | haltSelf
  | haltErr
  deriving DecidableEq, Repr

/-- `STATUS.PHASE` (R43). -/
inductive Phase where
  | idle
  | keyPress
  | keyRelease
  deriving DecidableEq, Repr

/-- `cmd_status`, the answer to the last host command (R56). -/
inductive CmdStatus where
  | ok
  | invalidAddress
  | loadTooLarge
  | refused
  deriving DecidableEq, Repr

/-- A display transaction (R56, R204): a pulse on `disp_clear`, or one `disp_draw`. -/
inductive DisplayTxn where
  | clear
  | draw (x y : Byte) (rows : List Byte)
  deriving DecidableEq, Repr

/-- The reference display's pixel grid (R205): what it showed when it was last left undefined (`none` after a `clear()`,
`some k` for the free contents of the `k`-th power-on), and the pixels flipped since, one row a line, bit `cx` column `cx`. -/
structure Display where
  origin : Option Nat
  flips : Vector (BitVec 64) 32
  deriving DecidableEq, Repr

/-- Memory (R70): the cells that differ from their power-on contents, addresses strictly rising. -/
abbrev Memory := List Host.Cell

structure State where
  /-- `V0` .. `VF` (R30). -/
  v : Vector Byte 16
  /-- `I` (R34). -/
  i : Word
  /-- `PC` (R35). -/
  pc : Word
  /-- `STACK[0..15]` (R39). -/
  stack : Vector Word 16
  /-- `SP`, the depth 0 .. 16 (R40). -/
  sp : Fin 17
  /-- `DT` (R41). -/
  dt : Byte
  /-- `ST` (R42). -/
  st : Byte
  /-- `STATUS.HALT` (R43). -/
  halt : Halt
  /-- `STATUS.ERR_CODE`, `none` for code 0 (R43). -/
  errCode : Option FatalError
  /-- `STATUS.PHASE` (R43). -/
  phase : Phase
  /-- `ERR_PC` (R44). -/
  errPc : Word
  /-- `ERR_OP` (R45). -/
  errOp : Word
  /-- `SCHED.ARMED` (R46). -/
  armed : Bool
  /-- `SCHED.EXEC_PEND` (R46). -/
  execPend : Bool
  /-- `SCHED.TIMER_PEND` (R46). -/
  timerPend : Bool
  /-- `KX` (R47). -/
  kx : Nibble
  /-- `KK` (R47). -/
  kk : Nibble
  /-- `OP`, the work item (R48). -/
  op : Word
  /-- `PC0`, the work item's address (R48). -/
  pc0 : Word
  /-- `MEM` (R51, R70). -/
  mem : Memory
  /-- The input port `keys[15:0]`: the levels the keyboard drives now (R56, R210). -/
  keys : BitVec 16
  /-- The answer on `cmd_status` to the last host command (R56). -/
  cmdStatus : CmdStatus
  /-- The display behind the display port (R205). -/
  display : Display
  /-- The display transactions issued, the latest first (R56, R204). -/
  txns : List DisplayTxn
  /-- THE MODEL'S OWN: the events that are already settled, the next one first; past them the next event is free. -/
  agenda : List Event
  /-- THE MODEL'S OWN: how many free values have been drawn. -/
  draws : Nat
  deriving DecidableEq, Repr

/-- Why the machine stops with a fault: never. Every fatal error of the spec is a state (`STATUS.HALT = HALT_ERR`, R256), and so
is a halted, a disarmed and a suspended machine (R277), so no fault is needed; the type has no constructor. Safe. -/
inductive Fault where
  deriving DecidableEq, Repr

/-- Why an instruction has no meaning. -/
inductive Refusal where
  /-- Raised by an arm of `exec` whose instruction has no meaning yet; no arm raises it any more. Safe. -/
  | notModelled (mnemonic : String)
  deriving DecidableEq, Repr

/-- What a step or a meaning answers. -/
abbrev Result := Host.Outcome State Fault Refusal

namespace State

/-- The machine right after power-on (R53, R291). The fields R53 does not name are `keys`, `cmdStatus`, `display`, `txns`
(ports) and `agenda`, `draws` (the model's own): log entries 4, 5, 6, 7, 9. -/
def reset : State where
  v := Vector.replicate 16 0
  i := 0
  pc := 0
  stack := Vector.replicate 16 0
  sp := 0
  dt := 0
  st := 0
  halt := .run
  errCode := none
  phase := .idle
  errPc := 0
  errOp := 0
  armed := false
  execPend := false
  timerPend := false
  kx := 0
  kk := 0
  op := 0
  pc0 := 0
  mem := []
  keys := 0
  cmdStatus := .ok
  display := ⟨some 0, Vector.replicate 32 0⟩
  txns := []
  agenda := []
  draws := 1

end State

end Sys2Proof.Machine
end

