-- ==== Sys2Proof/Machine/Memory.lean ====
section
/-! DEFINITION. Memory (20_memory): the power-on contents with the font, the canonical list of written cells, reading and writing
one byte. -/

namespace Sys2Proof

namespace Config

/-- The glyphs 0 to 7 of the hexadecimal font, five sprite rows each (R79, decision D24). -/
def fontLow : List Byte :=
  [0xF0, 0x90, 0x90, 0x90, 0xF0,
   0x20, 0x60, 0x20, 0x20, 0x70,
   0xF0, 0x10, 0xF0, 0x80, 0xF0,
   0xF0, 0x10, 0xF0, 0x10, 0xF0,
   0x90, 0x90, 0xF0, 0x10, 0x10,
   0xF0, 0x80, 0xF0, 0x10, 0xF0,
   0xF0, 0x80, 0xF0, 0x90, 0xF0,
   0xF0, 0x10, 0x20, 0x40, 0x40]

/-- The glyphs 8 to F of the hexadecimal font (R79, decision D24). -/
def fontHigh : List Byte :=
  [0xF0, 0x90, 0xF0, 0x90, 0xF0,
   0xF0, 0x90, 0xF0, 0x10, 0xF0,
   0xF0, 0x90, 0xF0, 0x90, 0x90,
   0xE0, 0x90, 0xE0, 0x90, 0xE0,
   0xF0, 0x80, 0x80, 0x80, 0xF0,
   0xE0, 0x90, 0x90, 0x90, 0xE0,
   0xF0, 0x80, 0xF0, 0x80, 0xF0,
   0xF0, 0x80, 0xF0, 0x80, 0x80]

/-- The configuration table `FONT`, 80 bytes (R79). -/
def font : List Byte := fontLow ++ fontHigh

/-- `MEM_POWERON` (R8, R81, decision D23). -/
def memPowerOn : Byte := 0x00

end Config

namespace Machine

/-- What a cell reads as when nothing has written it: the font at `0x050` .. `0x09F`, `MEM_POWERON` elsewhere (R78, R79, R81). -/
def powerOnByte (a : Nat) : Byte :=
  if Config.fontBase ≤ a ∧ a < Config.fontEnd then Config.font.getD (a - Config.fontBase) 0 else Config.memPowerOn

namespace Memory

/-- The byte of the cell `a` (R70). -/
def read : Memory → Nat → Byte
  | [], a => powerOnByte a
  | (k, b) :: m, a => if k = a then b else read m a

/-- The list with the cell `a` holding `b` in front, unless `b` is what `a` reads as unlisted. -/
def put (a : Nat) (b : Byte) (m : Memory) : Memory :=
  if b = powerOnByte a then m else (a, b) :: m

/-- `MEM[a] <- b` on the canonical list (R74). -/
def write : Memory → Nat → Byte → Memory
  | [], a, b => put a b []
  | (k, c) :: m, a, b =>
    if a < k then put a b ((k, c) :: m)
    else if a = k then put a b m
    else (k, c) :: write m a b

/-- The listed addresses are at least `lo`, strictly rising and below `MEM_SIZE`, and no entry is what its address reads as
unlisted. -/
def wfFrom (lo : Nat) : Memory → Bool
  | [] => true
  | (k, b) :: m => decide (lo ≤ k) && decide (k < Config.memSize) && decide (b ≠ powerOnByte k) && wfFrom (k + 1) m

/-- The canonical form, in which equal memories are equal lists. -/
def wf (m : Memory) : Bool := wfFrom 0 m

/-- The bytes written at ascending addresses from `a` (R82, R84). -/
def writeList : Memory → Nat → List Byte → Memory
  | m, _, [] => m
  | m, a, b :: bs => writeList (write m a b) (a + 1) bs

end Memory

namespace State

/-- `MemRead(a, 1)` (R12, R72): `none` is the raise of `BadMemoryAccess`. -/
def memRead (s : State) (a : Word) : Option Byte :=
  if a.toNat < Config.memSize then some (s.mem.read a.toNat) else none

/-- `MemWrite(a, 1, b)` (R12, R74): `none` is the raise of `BadMemoryAccess`. -/
def memWrite (s : State) (a : Word) (b : Byte) : Option State :=
  if a.toNat < Config.memSize then some { s with mem := s.mem.write a.toNat b } else none

/-- The bytes read at ascending addresses from `a`; `none` when one of them is out of range (R86, R202). -/
def memReadList (s : State) (a : Word) : Nat → Option (List Byte)
  | 0 => some []
  | k + 1 =>
    match s.memRead a with
    | none => none
    | some b => (s.memReadList (a + 1) k).map (b :: ·)

/-- The bytes written at ascending addresses from `a`; on the first address out of range the raise of `BadMemoryAccess`, with
the earlier writes done (R86). -/
def memWriteList (s : State) (a : Word) : List Byte → Except State State
  | [] => .ok s
  | b :: bs =>
    match s.memWrite a b with
    | none => .error s
    | some t => t.memWriteList (a + 1) bs

end State

end Machine

end Sys2Proof
end

