-- ==== Sys2Proof/Machine/Operands.lean ====
section
/-! DEFINITION. Every operand form: the register file, the immediates, the effective address, the jump target, the font glyph, the
decimal digits, the key code. -/

namespace Sys2Proof.Machine

namespace State

/-- `V[x]` (R11, R30). -/
def getV (s : State) (x : Nibble) : Byte := s.v[x.toNat]'x.isLt

/-- `V[x] <- b` (R11, R30): no register is hardwired (R32). -/
def setV (s : State) (x : Nibble) (b : Byte) : State := { s with v := s.v.set x.toNat b x.isLt }

/-- `STACK[k]` (R39). -/
def stackAt (s : State) (k : Fin 16) : Word := s.stack[k]

/-- `V0` .. `Vx` in ascending order (R194: `x + 1` registers). -/
def regsUpTo (s : State) (x : Nibble) : List Byte :=
  (List.range (x.toNat + 1)).map fun k => s.getV (BitVec.ofNat 4 k)

/-- `keys[k]` for a key code `k`: a code above `0x0F` is never down (R210, R219, decision D12). -/
def isDown (s : State) (k : Byte) : Bool := s.keys.getLsbD k.toNat

/-- The least `k` with `keys[k] = 1` (R213, decision D13); `none` when `keys = 0`. -/
def lowestKey (s : State) : Option Nibble :=
  ((List.range 16).find? fun k => s.keys.getLsbD k).map (BitVec.ofNat 4)

end State

/-- `VF`, the register that doubles as the flag (R31). -/
def vF : Nibble := 0xF

/-- `zext_16` of an address immediate (R10, R106). -/
def addrOf (nnn : Addr) : Word := nnn.zeroExtend 16

/-- `zext_16` of a register value (R10). -/
def wordOf (b : Byte) : Word := b.zeroExtend 16

/-- The target of `JP V0, nnn`, not reduced modulo 4096 (R153). -/
def indexedTarget (nnn : Addr) (v0 : Byte) : Word := addrOf nnn + wordOf v0

/-- The address of the glyph for the low nibble of `b` (R192, decision D10). -/
def glyphAddress (b : Byte) : Word := 0x0050 + 5 * ((b.extractLsb' 0 4).zeroExtend 16)

/-- The hundreds, tens and ones digit of a byte (R193, decision D37). -/
def decimalDigits (b : Byte) : List Byte := [b / 100, b / 10 % 10, b % 10]

end Sys2Proof.Machine
end

