-- ==== Sys2Proof/Machine/Flags.lean ====
section
/-! DEFINITION. The flag computations (10_state R38, 43_alu R178 to R182, 45_display R201) and the order of the flag write and the
result write (R171). -/

namespace Sys2Proof.Machine

/-- The value `0x00` or `0x01` a flag writes into `VF` (R38). -/
def flagByte (f : Bool) : Byte := if f then 0x01 else 0x00

/-- Carry out of bit 7: the unmasked 9-bit sum exceeds 255 (R178). -/
def carryOut (a b : Byte) : Bool := (a.zeroExtend 9 + b.zeroExtend 9 : BitVec 9).getLsbD 8

/-- NOT borrow: minuend at least the subtrahend, unsigned (R179, R181). -/
def noBorrow (a b : Byte) : Bool := decide (b ≤ a)

/-- The bit a right shift by one takes out (R180). -/
def shiftedOutRight (a : Byte) : Bool := a.getLsbD 0

/-- The bit a left shift by one takes out (R182). -/
def shiftedOutLeft (a : Byte) : Bool := a.getLsbD 7

/-- `VF <- flag`, then `V[x] <- result`: with `x = F` the result stays (R171, decision D6: `VF_ALIAS_ORDER = result_last`). -/
def State.setFlagThenResult (s : State) (x : Nibble) (flag : Bool) (result : Byte) : State :=
  (s.setV vF (flagByte flag)).setV x result

end Sys2Proof.Machine
end

