-- ==== Sys2Proof/Machine/Pixels.lean ====
section
/-! DEFINITION. The reference behaviour of the display (45_display R205, R206): `clear()` and `draw(x, y, rows)` on the 64 by 32 grid,
pixel by pixel as the spec writes it. -/

namespace Sys2Proof.Machine

/-- `v mod 64`, a column (R204: "coordinates wrap modulo the display's fixed 64×32 logical grid"). -/
def column (v : Nat) : Fin 64 := ⟨v % 64, Nat.mod_lt v (by decide)⟩

/-- `v mod 32`, a line (R204). -/
def line (v : Nat) : Fin 32 := ⟨v % 32, Nat.mod_lt v (by decide)⟩

namespace Display

/-- What the grid showed before the flips: nothing after a `clear()`, the free contents of a power-on otherwise (R205). -/
def background (d : Display) (cx : Fin 64) (cy : Fin 32) : Bool :=
  match d.origin with
  | none => false
  | some k => Config.powerOnPixel k cx cy

/-- `PIX[cx][cy]` (R205). -/
def pixel (d : Display) (cx : Fin 64) (cy : Fin 32) : Bool :=
  (d.background cx cy) ^^ (d.flips[cy].getLsbD cx)

/-- `PIX[cx][cy] <- PIX[cx][cy] XOR 1` (R205). -/
def flip (d : Display) (cx : Fin 64) (cy : Fin 32) : Display :=
  { d with flips := d.flips.set cy (d.flips[cy] ^^^ BitVec.twoPow 64 cx) }

/-- The grid after `clear()`: every pixel 0 (R200, R205). -/
def cleared : Display := ⟨none, Vector.replicate 32 0⟩

/-- The grid of the `k`-th power-on: free contents (R205, R297). -/
def undefined (k : Nat) : Display := ⟨some k, Vector.replicate 32 0⟩

/-- One sprite bit at one pixel: a 0 leaves the pixel alone, a 1 flips it and collides when it was set (R205). -/
def drawBit (acc : Display × Bool) (cx : Fin 64) (cy : Fin 32) (bit : Bool) : Display × Bool :=
  if bit then (acc.1.flip cx cy, acc.2 || acc.1.pixel cx cy) else acc

/-- The column bits `c, c+1, ..` of one sprite row, bit `7 - c` at column `x + c` (R205, R206). -/
def drawColumns (x : Nat) (cy : Fin 32) (row : Byte) : List Nat → Display × Bool → Display × Bool
  | [], acc => acc
  | c :: cs, acc => drawColumns x cy row cs (drawBit acc (column (x + c)) cy (row.getLsbD (7 - c)))

/-- The sprite rows from row `r` on, row `r` on line `y + r` (R205). -/
def drawRows (x y r : Nat) : List Byte → Display × Bool → Display × Bool
  | [], acc => acc
  | row :: rows, acc => drawRows x y (r + 1) rows (drawColumns x (line (y + r)) row (List.range 8) acc)

/-- `draw(x, y, rows)`: the grid after it and the answer `collided` (R204, R205). -/
def draw (d : Display) (x y : Byte) (rows : List Byte) : Display × Bool :=
  drawRows x.toNat y.toNat 0 rows (d, false)

end Display

end Sys2Proof.Machine
end

