-- ==== Sys2Proof/Machine/Ops.lean ====
section
/-! DEFINITION. The shared operations: stopping the scheduler, raising a fatal error and the halt check that ends a step, the skip,
the call stack, the block loads, the fetch, the display transactions, the sound output, the views the host reads. -/

namespace Sys2Proof.Machine

namespace State

/-- `stop()` (R227). -/
def stopScheduler (s : State) : State := { s with armed := false, execPend := false, timerPend := false }

/-- TAKING AN ERROR: `raise e` with the opcode to report (R256). The error is recorded with the address of the failing step, the
scheduler stops, nothing else changes (R257, R258). -/
def raise (s : State) (e : FatalError) (op : Word) : State :=
  stopScheduler { s with errCode := some e, halt := .haltErr, phase := .idle, errPc := s.pc0, errOp := op }

/-- The way out of a halt (R263; there is no return-from-trap instruction): `STATUS <- 0x00`, as `reset(entryAddress)` does. -/
def clearStatus (s : State) : State := { s with halt := .run, errCode := none, phase := .idle }

/-- The self-jump halt (R139, R262): not an error. -/
def haltAtSelf (s : State) : State := stopScheduler { s with halt := .haltSelf, errCode := none }

/-- Retire (R139, R140): the halt check, made when the step neither raised nor is suspended in a key wait. -/
def retire (s : State) : State :=
  if s.halt = .run ∧ s.phase = .idle ∧ s.pc = s.pc0 then s.haltAtSelf else s

/-- The skip action (R160). -/
def skipIf (s : State) (c : Bool) : State := if c then { s with pc := s.pc + 2 } else s

/-- Push on the call stack (R151): `none` when it is full. -/
def push (s : State) (w : Word) : Option State :=
  if h : s.sp.val < 16 then
    some { s with stack := s.stack.set s.sp.val w h, sp := ⟨s.sp.val + 1, by omega⟩ }
  else none

/-- Pop from the call stack (R152): `none` when it is empty; the entry is not cleared (R39). -/
def pop (s : State) : Option (Word × State) :=
  if h : 0 < s.sp.val then
    some (s.stackAt ⟨s.sp.val - 1, by omega⟩, { s with sp := ⟨s.sp.val - 1, by omega⟩ })
  else none

/-- `V[k] <- MemRead(i0 + k, 1)` for `count` registers from `k` on; on the first address out of range the raise of
`BadMemoryAccess`, with the earlier registers loaded (R195, R86). -/
def loadRegsFrom (s : State) (i0 : Word) (k : Nat) : Nat → Except State State
  | 0 => .ok s
  | count + 1 =>
    match s.memRead (i0 + BitVec.ofNat 16 k) with
    | none => .error s
    | some b => (s.setV (BitVec.ofNat 4 k) b).loadRegsFrom i0 (k + 1) count

/-- `MemRead(PC, 2)`, big-endian (R73, R76, R131): `none` when either byte is out of range. -/
def fetchOpcode (s : State) : Option Word :=
  match s.memRead s.pc, s.memRead (s.pc + 1) with
  | some hi, some lo => some (opcodeOfBytes hi lo)
  | _, _ => none

/-- `Display.clear()`, one pulse on `disp_clear` (R200). -/
def displayClear (s : State) : State := { s with display := Display.cleared, txns := .clear :: s.txns }

/-- `Display.draw(x, y, rows)`, one transaction, and `VF <- collided` (R201, R204). -/
def displayDraw (s : State) (x y : Byte) (rows : List Byte) : State :=
  let answer := s.display.draw x y rows
  ({ s with display := answer.1, txns := .draw x y rows :: s.txns }).setV vF (flagByte answer.2)

/-- `rnd8()`: the byte on the random port, sampled once (R186), and the state after the sampling. -/
def drawRandom (s : State) : Byte × State := (Config.rnd s.draws, { s with draws := s.draws + 1 })

/-- `sound_on`, a function of `ST` (R42, R223). -/
def soundOn (s : State) : Bool := s.st != 0

/-- `timerTick` (R221). -/
def timerTick (s : State) : State :=
  { s with dt := if s.dt = 0 then 0 else s.dt - 1, st := if s.st = 0 then 0 else s.st - 1 }

end State

/-- The code of `STATUS.HALT` (R43). -/
def Halt.code : Halt → BitVec 2
  | .run => 0
  | .haltSelf => 1
  | .haltErr => 2

/-- `code(E)` (R250). -/
def FatalError.code : FatalError → BitVec 3
  | .invalidAddress => 1
  | .illegalInstruction => 2
  | .stackOverflow => 3
  | .stackUnderflow => 4
  | .badMemoryAccess => 5

/-- The code of `STATUS.ERR_CODE` (R43). -/
def errCodeBits : Option FatalError → BitVec 3
  | none => 0
  | some e => e.code

/-- The code of `STATUS.PHASE` (R43). -/
def Phase.code : Phase → BitVec 2
  | .idle => 0
  | .keyPress => 1
  | .keyRelease => 2

/-- `STATUS` as the host reads it; bit 7 reads 0 (R43). -/
def State.statusByte (s : State) : Byte :=
  (0#1 ++ s.phase.code : BitVec 3) ++ (errCodeBits s.errCode ++ s.halt.code : BitVec 5)

/-- `SCHED` as the host reads it (R46). -/
def State.schedBits (s : State) : BitVec 3 :=
  (BitVec.ofBool s.timerPend ++ BitVec.ofBool s.execPend : BitVec 2) ++ BitVec.ofBool s.armed

/-- The answer of an instruction that ran to its end or raised: a next state either way (R13, R256). -/
def answer (r : Except (FatalError × State) State) : Result :=
  match r with
  | .ok t => .next t
  | .error (e, t) => .next (t.raise e t.op)

end Sys2Proof.Machine
end

