-- ==== Sys2Proof/Machine/Alu.lean ====
section
/-! DEFINITION. Register loads, ALU operations, random (43_alu). The operands are read before anything is written (R170). -/

namespace Sys2Proof.Machine

/-- `LD Vx, nn` (R172). -/
def execLdImm (x : Nibble) (nn : Byte) (s : State) : Result := .next (s.setV x nn)

/-- `ADD Vx, nn` (R173): no flag (decision D41). -/
def execAddImm (x : Nibble) (nn : Byte) (s : State) : Result := .next (s.setV x (s.getV x + nn))

/-- `LD Vx, Vy` (R174). -/
def execLdReg (x y : Nibble) (s : State) : Result := .next (s.setV x (s.getV y))

/-- `OR Vx, Vy` (R175): no flag (decision D7). -/
def execOrReg (x y : Nibble) (s : State) : Result := .next (s.setV x (s.getV x ||| s.getV y))

/-- `AND Vx, Vy` (R176): no flag (decision D7). -/
def execAndReg (x y : Nibble) (s : State) : Result := .next (s.setV x (s.getV x &&& s.getV y))

/-- `XOR Vx, Vy` (R177): no flag (decision D7). -/
def execXorReg (x y : Nibble) (s : State) : Result := .next (s.setV x (s.getV x ^^^ s.getV y))

/-- `ADD Vx, Vy` (R178). -/
def execAddReg (x y : Nibble) (s : State) : Result :=
  let a := s.getV x
  let b := s.getV y
  .next (s.setFlagThenResult x (carryOut a b) (a + b))

/-- `SUB Vx, Vy` (R179): the minuend is `Vx`. -/
def execSub (x y : Nibble) (s : State) : Result :=
  let a := s.getV x
  let b := s.getV y
  .next (s.setFlagThenResult x (noBorrow a b) (a - b))

/-- `SUBN Vx, Vy` (R181): the minuend is `Vy`. -/
def execSubn (x y : Nibble) (s : State) : Result :=
  let a := s.getV x
  let b := s.getV y
  .next (s.setFlagThenResult x (noBorrow b a) (b - a))

/-- `SHR Vx` (R180): in place on `Vx`; `y` is not used (R116, R185). -/
def execShr (x _y : Nibble) (s : State) : Result :=
  let a := s.getV x
  .next (s.setFlagThenResult x (shiftedOutRight a) (a >>> 1))

/-- `SHL Vx` (R182): in place on `Vx`; `y` is not used (R116, R185). -/
def execShl (x _y : Nibble) (s : State) : Result :=
  let a := s.getV x
  .next (s.setFlagThenResult x (shiftedOutLeft a) (a <<< 1))

/-- `V[x] <- r & nn` for a sampled byte `r` (R186). -/
def State.setMasked (s : State) (x : Nibble) (nn r : Byte) : State := s.setV x (r &&& nn)

/-- `RND Vx, nn` (R186). -/
def execRnd (x : Nibble) (nn : Byte) (s : State) : Result :=
  let drawn := s.drawRandom
  .next (drawn.2.setMasked x nn drawn.1)

end Sys2Proof.Machine
end

