-- ==== Sys2Proof/Machine/Control.lean ====
section
/-! DEFINITION. Control transfer (41_control_flow). `PC` already holds the address of the next sequential instruction. -/

namespace Sys2Proof.Machine

/-- `JP nnn` (R150). -/
def execJp (nnn : Addr) (s : State) : Result := .next { s with pc := addrOf nnn }

/-- `CALL nnn` (R151). -/
def execCall (nnn : Addr) (s : State) : Result :=
  match s.push s.pc with
  | none => .next (s.raise .stackOverflow s.op)
  | some t => .next { t with pc := addrOf nnn }

/-- `RET` (R152). -/
def execRet (s : State) : Result :=
  match s.pop with
  | none => .next (s.raise .stackUnderflow s.op)
  | some (w, t) => .next { t with pc := w }

/-- `JP V0, nnn` (R153): `V[0]` whatever `op[11:8]` is (decision D8). -/
def execJpV0 (nnn : Addr) (s : State) : Result :=
  let t := indexedTarget nnn (s.getV 0)
  if t.toNat < Config.memSize then .next { s with pc := t } else .next (s.raise .invalidAddress s.op)

end Sys2Proof.Machine
end

