-- ==== Sys2Proof/Machine/Draw.lean ====
section
/-! DEFINITION. The display instructions (45_display). -/

namespace Sys2Proof.Machine

/-- `CLS` (R200). -/
def execCls (s : State) : Result := .next s.displayClear

/-- `DRW Vx, Vy, n` (R201): all rows are read before the transaction (R202); with `n = 0` there is none and `VF <- 0` (R203). -/
def execDrw (x y n : Nibble) (s : State) : Result :=
  if n = 0 then .next (s.setV vF 0x00)
  else
    match s.memReadList s.i n.toNat with
    | none => answer (.error (.badMemoryAccess, s))
    | some rows => answer (.ok (s.displayDraw (s.getV x) (s.getV y) rows))

end Sys2Proof.Machine
end

