-- ==== Sys2Proof/Machine/Index.lean ====
section
/-! DEFINITION. The address register and the memory instructions (44_index_memory). -/

namespace Sys2Proof.Machine

/-- `LD I, nnn` (R190). -/
def execLdI (nnn : Addr) (s : State) : Result := .next { s with i := addrOf nnn }

/-- `ADD I, Vx` (R191): modulo 65536, no flag (decision D9). -/
def execAddI (x : Nibble) (s : State) : Result := .next { s with i := s.i + wordOf (s.getV x) }

/-- `LD F, Vx` (R192). -/
def execLdF (x : Nibble) (s : State) : Result := .next { s with i := glyphAddress (s.getV x) }

/-- `LD B, Vx` (R193): `I` is unchanged (decision D43). -/
def execLdB (x : Nibble) (s : State) : Result :=
  match s.memWriteList s.i (decimalDigits (s.getV x)) with
  | .ok t => answer (.ok t)
  | .error t => answer (.error (.badMemoryAccess, t))

/-- `LD [I], Vx` (R194, R196): `I` ends at `I + x + 1`; on a fault it is not advanced (R86). -/
def execStoreRegs (x : Nibble) (s : State) : Result :=
  match s.memWriteList s.i (s.regsUpTo x) with
  | .ok t => answer (.ok { t with i := s.i + BitVec.ofNat 16 (x.toNat + 1) })
  | .error t => answer (.error (.badMemoryAccess, t))

/-- `LD Vx, [I]` (R195, R196): `I` ends at `I + x + 1`; on a fault it is not advanced (R86). -/
def execLoadRegs (x : Nibble) (s : State) : Result :=
  match s.loadRegsFrom s.i 0 (x.toNat + 1) with
  | .ok t => answer (.ok { t with i := s.i + BitVec.ofNat 16 (x.toNat + 1) })
  | .error t => answer (.error (.badMemoryAccess, t))

end Sys2Proof.Machine
end

