-- ==== Sys2Proof/Machine/KeyTimer.lean ====
section
/-! DEFINITION. The keyboard and timer instructions (46_keyboard_timers), and the two transitions that finish `LD Vx, K`. -/

namespace Sys2Proof.Machine

/-- `SKP Vx` (R211, R219). -/
def execSkp (x : Nibble) (s : State) : Result := .next (s.skipIf (s.isDown (s.getV x)))

/-- `SKNP Vx` (R215, R219). -/
def execSknp (x : Nibble) (s : State) : Result := .next (s.skipIf (!s.isDown (s.getV x)))

/-- `LD Vx, K`, begin (R212): the step is suspended. -/
def execLdVxK (x : Nibble) (s : State) : Result := .next { s with kx := x, phase := .keyPress }

/-- `LD Vx, DT` (R216). -/
def execLdVxDt (x : Nibble) (s : State) : Result := .next (s.setV x s.dt)

/-- `LD DT, Vx` (R217). -/
def execLdDtVx (x : Nibble) (s : State) : Result := .next { s with dt := s.getV x }

/-- `LD ST, Vx` (R218): `sound_on` follows at once (R223). -/
def execLdStVx (x : Nibble) (s : State) : Result := .next { s with st := s.getV x }

/-- Key latch (R213): with a key down, the lowest is taken. -/
def State.keyLatch (s : State) : State :=
  match s.lowestKey with
  | none => s
  | some k => { s with kk := k, phase := .keyRelease }

/-- Key release and completion (R214): when the latched key is up, its code is written and the step retires. -/
def State.keyComplete (s : State) : State :=
  if s.isDown (s.kk.zeroExtend 8) then s
  else State.retire ({ s with phase := .idle }.setV s.kx (s.kk.zeroExtend 8))

/-- Key-wait progress (R213, R214, R240): none in `IDLE`; `stop()` does not hold it up (R227). -/
def State.keyProgress (s : State) : State :=
  match s.phase with
  | .idle => s
  | .keyPress => s.keyLatch
  | .keyRelease => s.keyComplete

end Sys2Proof.Machine
end

