-- ==== Sys2Proof/Machine/Skips.lean ====
section
/-! DEFINITION. Conditional skips on registers (42_skips). -/

namespace Sys2Proof.Machine

/-- `SE Vx, nn` (R161). -/
def execSeImm (x : Nibble) (nn : Byte) (s : State) : Result := .next (s.skipIf (s.getV x == nn))

/-- `SNE Vx, nn` (R162). -/
def execSneImm (x : Nibble) (nn : Byte) (s : State) : Result := .next (s.skipIf (s.getV x != nn))

/-- `SE Vx, Vy` (R163). -/
def execSeReg (x y : Nibble) (s : State) : Result := .next (s.skipIf (s.getV x == s.getV y))

/-- `SNE Vx, Vy` (R164). -/
def execSneReg (x y : Nibble) (s : State) : Result := .next (s.skipIf (s.getV x != s.getV y))

end Sys2Proof.Machine
end

