-- ==== Sys2Proof/Machine/Sequencer.lean ====
section
/-! DEFINITION. The step and the events around it: fetch, decode, execute, retire (40_fetch_decode R130), the scheduler and the
deliveries (47_timers_scheduler), the host commands (20_memory R82, 70_reset_and_hazards R292). Every event is one atomic
transition (R18, R231). -/

namespace Sys2Proof.Machine

namespace State

/-- After a successful fetch (R131): the work item is latched and `PC` is advanced before decode. -/
def fetched (s : State) (op : Word) : State := { s with pc0 := s.pc, op := op, pc := s.pc + 2 }

/-- A faulting fetch (R131, R255): `PC` is not advanced, `OP` is not updated, the reported opcode is `0x0000`. -/
def fetchFault (s : State) : State := raise { s with pc0 := s.pc } .badMemoryAccess 0x0000

/-- An illegal opcode (R132, R251), after `PC` was advanced. -/
def illegalFault (s : State) (op : Word) : State := (s.fetched op).raise .illegalInstruction op

/-- One execution step (R130): fetch, advance, decode, execute, halt check. -/
def executionStep (s : State) : Result :=
  match s.fetchOpcode with
  | none => .next s.fetchFault
  | some op =>
    match decode op with
    | none => .next (s.illegalFault op)
    | some i =>
      match exec i (s.fetched op) with
      | .next t => .next t.retire
      | .fault e => .fault e
      | .refused r => .refused r

/-- The execution delivery is enabled (R232), but for the priority of R235. -/
def execDue (s : State) : Bool := s.execPend && decide (s.phase = .idle) && decide (s.halt = .run)

/-- A delivery: the pending timer tick first (R234, R235), else the pending execution tick (R232); nothing when none is due. -/
def deliver (s : State) : Result :=
  if s.timerPend then .next (timerTick { s with timerPend := false })
  else if s.execDue then executionStep { s with execPend := false }
  else .next s

/-- The execution trigger is due (R229): fires only while armed; dropped when a tick is pending or a step is suspended. -/
def fireExec (s : State) : State :=
  if s.armed && decide (s.phase = .idle) && !s.execPend then { s with execPend := true } else s

/-- The 60 Hz trigger is due (R230): fires only while armed; two undelivered ticks coalesce. -/
def fireTimer (s : State) : State := if s.armed then { s with timerPend := true } else s

/-- `power_on` (R290, R291): R53 again; the keyboard's levels and the record of transactions are not the core's, the display
shows new free contents (R297), and the agenda goes on. -/
def powerOn (s : State) : State :=
  { reset with
    keys := s.keys, txns := s.txns, agenda := s.agenda,
    display := Display.undefined s.draws, draws := s.draws + 1 }

/-- `cmd_load(start, bytes)` (R82): accepted only while disarmed and idle; the bound is the source's literal (R83). -/
def cmdLoad (s : State) (start : Word) (bytes : List Byte) : State :=
  if s.armed ∨ s.phase ≠ .idle then { s with cmdStatus := .refused }
  else if start.toNat + bytes.length > 0xFFF then { s with cmdStatus := .loadTooLarge }
  else { s with mem := s.mem.writeList start.toNat bytes, cmdStatus := .ok }

/-- `cmd_reset(entry)` (R292, R293): accepted only while disarmed. -/
def cmdReset (s : State) (entry : Word) : State :=
  if s.armed then { s with cmdStatus := .refused }
  else if entry.toNat > Config.lastEntry then { s with cmdStatus := .invalidAddress }
  else clearStatus { s with pc := entry, cmdStatus := .ok }

/-- `cmd_start` (R226): refused while halted, idempotent, arms both triggers with nothing pending. -/
def cmdStart (s : State) : State :=
  if s.halt ≠ .run then { s with cmdStatus := .refused }
  else if s.armed then { s with cmdStatus := .ok }
  else { s with armed := true, execPend := false, timerPend := false, cmdStatus := .ok }

/-- `cmd_stop` (R227). -/
def cmdStop (s : State) : State := { s.stopScheduler with cmdStatus := .ok }

/-- The event that happens next and the state with it taken off: the head of the agenda, or a free event past its end (R239). -/
def nextEvent (s : State) : Event × State :=
  match s.agenda with
  | e :: rest => (e, { s with agenda := rest })
  | [] => (Config.freeEvent s.draws, { s with draws := s.draws + 1 })

/-- One event as one atomic transition (R18, R231). -/
def perform (s : State) : Event → Result
  | .deliver => s.deliver
  | .keyProgress => .next s.keyProgress
  | .execFire => .next s.fireExec
  | .timerFire => .next s.fireTimer
  | .keys levels => .next { s with keys := levels }
  | .powerOn => .next s.powerOn
  | .cmdLoad start bytes => .next (s.cmdLoad start bytes)
  | .cmdReset entry => .next (s.cmdReset entry)
  | .cmdStart => .next s.cmdStart
  | .cmdStop => .next s.cmdStop

/-- The address of the next fetch if two bytes fit there, else the conventional load address (R292, R78). -/
def placeAddress (s : State) : Word := if s.pc.toNat ≤ Config.lastEntry then s.pc else Config.programBase

/-- The machine in which the very next event delivers an execution tick that fetches `op`: `op` stands at the placed address, the
machine runs, is armed and idle, and that tick alone is pending. -/
def poised (s : State) (op : Word) : State :=
  { s with
    pc := s.placeAddress,
    mem := s.mem.writeList s.placeAddress.toNat [opcodeHigh op, opcodeLow op],
    halt := .run, errCode := none, phase := .idle,
    armed := true, execPend := true, timerPend := false,
    agenda := .deliver :: s.agenda }

end State

end Sys2Proof.Machine
end

