-- ==== Sys2Proof/Machine/Step.lean ====
section
/-! DEFINITION. One step of the machine: the next event, performed. A step of the model is one atomic operation of R18, of which an
instruction is one (two more finish `LD Vx, K`). -/

namespace Sys2Proof.Machine

/-- The next event, performed (R18, R231, R239). -/
def step (s : State) : Host.Outcome State Fault Refusal :=
  s.nextEvent.2.perform s.nextEvent.1

/-- `s` with the instruction placed where `step` fetches next, and all that its running as the very next step takes. -/
def State.withFetchWord (s : State) (nbits w : Nat) : State := s.poised (tableOpcode nbits w)

end Sys2Proof.Machine
end

