-- ==== Sys2Proof/Safety.lean ====
section
/-! DEFINITION. What a good state is and what a safe step is, in the terms the statements use. -/

namespace Sys2Proof.Machine

/-- What holds of every state the machine can be in, and rules out the states no run reaches. -/
structure State.Inv (s : State) : Prop where
  /-- Memory is in its canonical form. -/
  memWf : s.mem.wf = true
  /-- `ARMED = 1` with `HALT != RUN` cannot occur (R240). -/
  armedRuns : s.armed = true → s.halt = .run
  /-- `HALT != RUN` with `PHASE != IDLE` cannot occur (R240). -/
  haltedIdle : s.halt ≠ .run → s.phase = .idle
  /-- `ERR_CODE` is not 0 exactly when `HALT = HALT_ERR` (R43). -/
  errCodeIff : s.errCode.isSome = true ↔ s.halt = .haltErr
  /-- `EXEC_PEND = 1` only while armed (R227, R229). -/
  execPendArmed : s.execPend = true → s.armed = true
  /-- `TIMER_PEND = 1` only while armed (R227, R230). -/
  timerPendArmed : s.timerPend = true → s.armed = true
  /-- No execution tick is pending during a key wait (R229). -/
  waitNoExec : s.phase ≠ .idle → s.execPend = false
  /-- During a key wait `PC` is the address after the suspended instruction (R212). -/
  waitPc : s.phase ≠ .idle → s.pc = s.pc0 + 2
  /-- `PC` stays at or below `0x1002` (R37). -/
  pcBound : s.pc.toNat ≤ 0x1002
  /-- Every live stack entry is at most `0x1000` (R152). -/
  stackBound : ∀ k : Fin 16, k.val < s.sp.val → (s.stackAt k).toNat ≤ 0x1000

/-- The run ended in error (R254, R260). -/
def State.faulted (s : State) : Bool := decide (s.halt = .haltErr)

/-- A step that does not end the run in error: what a claim of safety asks of every step of a run. -/
def SafeStep (s : State) : Prop := ∃ t, step s = .next t ∧ t.faulted = false

end Sys2Proof.Machine
end

