-- ==== Sys2Proof/Certificates/Slice0/Obligations.lean ====
section
/-! DEFINITION. The statements for the provers, and the few words they are written in. -/

namespace Sys2Proof.Claims

open Sys2Proof.Machine

/-- The next event is a delivery, and what is due is an execution tick (R232): pending, core idle and running, no timer tick
pending (R235). -/
def ExecTickNext (s : State) (rest : List Event) : Prop :=
  s.agenda = .deliver :: rest ∧ s.execPend = true ∧ s.timerPend = false ∧ s.phase = .idle ∧ s.halt = .run

/-- The state in which the delivered step begins: the event is taken off, the tick is no longer pending (R232). -/
def begun (s : State) (rest : List Event) : State := { s with agenda := rest, execPend := false }

/-- What follows execute: the halt check (R139). -/
def thenRetire : Result → Result
  | .next t => .next t.retire
  | .fault e => .fault e
  | .refused r => .refused r

/-- The state a fatal error leaves, field by field (R256): `op` is the opcode reported. -/
def haltedWith (s : State) (e : FatalError) (op : Word) : State :=
  { s with
    errCode := some e, halt := .haltErr, phase := .idle, errPc := s.pc0, errOp := op,
    armed := false, execPend := false, timerPend := false }

/-- Exactly one register is written, with `b`; nothing else of the state changes. -/
def WroteReg (s t : State) (x : Nibble) (b : Byte) : Prop :=
  t = { s with v := t.v } ∧ t.getV x = b ∧ ∀ r, r ≠ x → t.getV r = s.getV r

/-- A flag-producing ALU instruction's effect (R171): `Vx` holds the result; unless `x = F`, `VF` holds the flag; no other
register and nothing else of the state changes. -/
def WroteFlagged (s t : State) (x : Nibble) (result flag : Byte) : Prop :=
  t = { s with v := t.v } ∧ t.getV x = result ∧ (x ≠ 0xF → t.getV 0xF = flag) ∧
    ∀ r, r ≠ x → r ≠ 0xF → t.getV r = s.getV r

/-- Every byte of memory outside `[lo, hi)` reads as before. -/
def MemKeptOutside (s t : State) (lo hi : Nat) : Prop := ∀ a, (a < lo ∨ hi ≤ a) → t.mem.read a = s.mem.read a

/-- Row `r`, column `c` of a sprite drawn at `(x, y)` fall on pixel `(cx, cy)` with bit 1 (R205, R206): `c` and `r` are the
distances of the pixel from the corner, modulo 64 and 32. -/
def SpriteBitAt (x y : Byte) (rows : List Byte) (cx : Fin 64) (cy : Fin 32) : Bool :=
  let c := (cx.val + 256 - x.toNat) % 64
  let r := (cy.val + 256 - y.toNat) % 32
  decide (c < 8) && (rows.getD r 0).getLsbD (7 - c)

end Sys2Proof.Claims

open Sys2Proof Sys2Proof.Machine Sys2Proof.Claims

/-! ### Encoding -/

/-- Words written out from the opcode map decode to their instructions, one of every family (R110). -/
def Obligations.OpcodeMapWordsDecode : Prop :=
  decode 0x00E0 = some .cls ∧ decode 0x00EE = some .ret ∧ decode 0x1200 = some (.jp 0x200) ∧
  decode 0x220A = some (.call 0x20A) ∧ decode 0x332A = some (.seImm 3 0x2A) ∧ decode 0x432A = some (.sneImm 3 0x2A) ∧
  decode 0x5120 = some (.seReg 1 2) ∧ decode 0x6A81 = some (.ldImm 0xA 0x81) ∧ decode 0x70FF = some (.addImm 0 0xFF) ∧
  decode 0x8AB4 = some (.addReg 0xA 0xB) ∧ decode 0x9120 = some (.sneReg 1 2) ∧ decode 0xA300 = some (.ldI 0x300) ∧
  decode 0xB300 = some (.jpV0 0x300) ∧ decode 0xC30F = some (.rnd 3 0x0F) ∧ decode 0xD7A5 = some (.drw 7 0xA 5) ∧
  decode 0xE59E = some (.skp 5) ∧ decode 0xE5A1 = some (.sknp 5) ∧ decode 0xF255 = some (.storeRegs 2)

/-- Decoding an encoded instruction gives it back, from its opcode and from its two bytes with any bytes after them. -/
def Obligations.DecodeEncodeRoundTrip : Prop :=
  ∀ i : Instr, decode (encode i) = some i ∧ ∀ rest, decodeBytes (encodeBytes i ++ rest) = .ok (i, rest)

/-- Encoding a decoded instruction gives the opcode back: no bit of a legal opcode is lost. -/
def Obligations.EncodeDecodeRoundTrip : Prop :=
  ∀ (op : Word) (i : Instr), decode op = some i → encode i = op

/-- R107: the nibbles reconstruct the opcode, and `nn` and `nnn` are the nibbles put together. -/
def Obligations.NibblesReconstructOpcode : Prop :=
  ∀ op : Word,
    op.toNat = (Opcode.n1 op).toNat * 2 ^ 12 + (Opcode.x op).toNat * 2 ^ 8 + (Opcode.y op).toNat * 2 ^ 4 + (Opcode.n op).toNat ∧
    (Opcode.nn op).toNat = (Opcode.y op).toNat * 2 ^ 4 + (Opcode.n op).toNat ∧
    (Opcode.nnn op).toNat = (Opcode.x op).toNat * 2 ^ 8 + (Opcode.y op).toNat * 2 ^ 4 + (Opcode.n op).toNat

/-- R112: an opcode is legal exactly when it selects a row of the map, then it selects exactly one, the row of the instruction it
decodes to; and it is legal exactly when the required sub-fields of its family hold. -/
def Obligations.LegalOpcodesSelectExactlyOneRow : Prop :=
  ∀ op : Word,
    ((decode op).isSome = true ↔ ∃ r ∈ opcodeMap, r.selects op = true) ∧
    (∀ r ∈ opcodeMap, ∀ q ∈ opcodeMap, r.selects op = true → q.selects op = true → r = q) ∧
    (∀ i, decode op = some i → opcodeRow i ∈ opcodeMap ∧ (opcodeRow i).selects op = true) ∧
    ((decode op).isSome = true ↔ wellFormedOpcode op = true)

/-! ### The step -/

/-- When the two bytes at `PC` decode to `i` and an execution tick is delivered, the step is fetch, advance, `exec i`, halt
check (R130). The agenda that names the next event is the model's own (log entry 1). -/
def Obligations.StepRunsDecodedInstruction : Prop :=
  ∀ (s : State) (rest : List Event) (hi lo : Byte) (i : Instr),
    ExecTickNext s rest → s.pc.toNat ≤ 0xFFE → s.mem.read s.pc.toNat = hi → s.mem.read (s.pc.toNat + 1) = lo →
    decode (opcodeOfBytes hi lo) = some i →
    step s = thenRetire (exec i
      { s with
        agenda := rest, execPend := false, pc0 := s.pc, op := opcodeOfBytes hi lo, pc := s.pc + 2 })

/-- An instruction placed for the next fetch is what the very next step runs, from any state with memory in canonical form. How it is
placed is the model's own (log entry 3). -/
def Obligations.PlacedInstructionRunsNext : Prop :=
  ∀ (s : State) (w : Nat) (i : Instr),
    s.mem.wf = true → decodeTableWord 16 w = some i →
    step (s.withFetchWord 16 w) = thenRetire (exec i ((begun (s.withFetchWord 16 w) s.agenda).fetched (tableOpcode 16 w)))

/-- A fetch whose second byte does not fit raises `BadMemoryAccess`: `PC` and `OP` stay, the opcode reported is `0x0000`
(R131, R255). -/
def Obligations.FetchBeyondMemoryHalts : Prop :=
  ∀ (s : State) (rest : List Event),
    ExecTickNext s rest → 0xFFE < s.pc.toNat →
    step s = .next
      { s with
        agenda := rest, pc0 := s.pc, errCode := some .badMemoryAccess, halt := .haltErr, phase := .idle,
        errPc := s.pc, errOp := 0x0000, armed := false, execPend := false, timerPend := false }

/-- An opcode outside the map raises `IllegalInstruction` at decode, after `PC` was advanced, with no other effect (R251). -/
def Obligations.IllegalOpcodeHalts : Prop :=
  ∀ (s : State) (rest : List Event) (hi lo : Byte),
    ExecTickNext s rest → s.pc.toNat ≤ 0xFFE → s.mem.read s.pc.toNat = hi → s.mem.read (s.pc.toNat + 1) = lo →
    decode (opcodeOfBytes hi lo) = none →
    step s = .next
      { s with
        agenda := rest, pc0 := s.pc, op := opcodeOfBytes hi lo, pc := s.pc + 2,
        errCode := some .illegalInstruction, halt := .haltErr, phase := .idle,
        errPc := s.pc, errOp := opcodeOfBytes hi lo, armed := false, execPend := false, timerPend := false }

/-- The halt check (R138, R139): a step whose execute neither raised nor suspended halts at itself exactly when `PC` is what it was
before the fetch; all effects of the instruction stay, `ERR_PC` and `ERR_OP` are untouched, the scheduler stops (R262, R233). -/
def Obligations.HaltCheckComparesPcWithFetchAddress : Prop :=
  ∀ (s : State) (rest : List Event) (op : Word) (i : Instr) (t : State),
    ExecTickNext s rest → (begun s rest).fetchOpcode = some op → decode op = some i →
    exec i ((begun s rest).fetched op) = .next t → t.halt = .run → t.phase = .idle →
    step s = .next
      (if t.pc = s.pc then
        { t with halt := .haltSelf, errCode := none, armed := false, execPend := false, timerPend := false }
      else t)

/-- Only `JP`, `JP V0`, `CALL` and `RET` can end a step by the self-jump halt: every other instruction leaves `PC` at the next
instruction or at the one after it (R141). -/
def Obligations.OnlyTransfersCanHaltAtSelf : Prop :=
  ∀ (i : Instr) (s t : State),
    (∀ nnn, i ≠ .jp nnn) → (∀ nnn, i ≠ .jpV0 nnn) → (∀ nnn, i ≠ .call nnn) → i ≠ .ret →
    exec i s = .next t →
    (t.pc = s.pc ∨ t.pc = s.pc + 2) ∧ (s.halt = .run → s.pc = s.pc0 + 2 → t.retire.halt ≠ .haltSelf)

/-- Every step and every instruction answers a next state, from every state: no fault and no refusal stops the model. This is the
model's choice: a raise answers the halted state of R256 (log entry 17), and an operation that is not enabled, where the spec says
stuck (93_implementation_defined U23, U25), answers the same state (log entry 2). -/
def Obligations.EveryStepAnswersNext : Prop :=
  (∀ (i : Instr) (s : State), ∃ t, exec i s = .next t) ∧ ∀ s : State, ∃ t, step s = .next t

/-! ### Errors -/

/-- Taking a fatal error records it and stops the scheduler; nothing else changes (R256, R257), and `STATUS` reads accordingly. -/
def Obligations.RaiseRecordsErrorAndStops : Prop :=
  ∀ (s : State) (e : FatalError) (op : Word),
    s.raise e op = haltedWith s e op ∧ (s.raise e op).schedBits = 0 ∧
    (s.raise e op).statusByte = BitVec.ofNat 8 (2 + 4 * e.code.toNat) ∧
    (e = .invalidAddress → e.code = 1) ∧ (e = .illegalInstruction → e.code = 2) ∧ (e = .stackOverflow → e.code = 3) ∧
    (e = .stackUnderflow → e.code = 4) ∧ (e = .badMemoryAccess → e.code = 5)

/-- An instruction raises only an error of the table of R250, and only on the table's condition. -/
def Obligations.ErrorsOnlyAsTabled : Prop :=
  ∀ (i : Instr) (s t : State) (e : FatalError),
    exec i s = .next t → s.halt = .run → s.errCode = none → t.errCode = some e →
    t.halt = .haltErr ∧
    ((e = .invalidAddress ∧ ∃ nnn, i = .jpV0 nnn ∧ 0xFFF < nnn.toNat + (s.getV 0).toNat) ∨
     (e = .stackOverflow ∧ (∃ nnn, i = .call nnn) ∧ s.sp.val = 16) ∨
     (e = .stackUnderflow ∧ i = .ret ∧ s.sp.val = 0) ∨
     (e = .badMemoryAccess ∧
       ((∃ x y n, i = .drw x y n ∧ 0 < n.toNat ∧ 0xFFF < s.i.toNat + (n.toNat - 1)) ∨
        (∃ x, i = .ldB x ∧ 0xFFF < s.i.toNat + 2) ∨
        (∃ x, i = .storeRegs x ∧ 0xFFF < s.i.toNat + x.toNat) ∨
        (∃ x, i = .loadRegs x ∧ 0xFFF < s.i.toNat + x.toNat))))

/-- Only the delivery of an execution tick can end a run in error: no timer tick, key-wait transition, trigger fire, key change or
host command raises (R261). -/
def Obligations.OnlyInstructionsRaiseErrors : Prop :=
  ∀ (s t : State) (e : Event) (rest : List Event),
    s.agenda = e :: rest → (e = .deliver → s.timerPend = true) → step s = .next t → t.halt = .haltErr →
    s.halt = .haltErr

/-- After a halt only host commands and the environment's inputs change anything: no step, no timer tick, no key progress, no trigger
fire (R254, R260, R233). -/
def Obligations.HaltedMachineStaysPut : Prop :=
  ∀ (s : State) (e : Event) (rest : List Event),
    s.Inv → s.halt ≠ .run → s.agenda = e :: rest →
    (e = .deliver ∨ e = .keyProgress ∨ e = .execFire ∨ e = .timerFire) →
    step s = .next { s with agenda := rest }

/-! ### Control transfer and the call stack -/

/-- R150: `JP nnn`. -/
def Obligations.JpSetsPc : Prop :=
  ∀ (nnn : Addr) (s : State), exec (.jp nnn) s = .next { s with pc := BitVec.ofNat 16 nnn.toNat }

/-- R151: `CALL nnn` pushes the return address, or raises `StackOverflow` when the stack is full. -/
def Obligations.CallPushesOrOverflows : Prop :=
  ∀ (nnn : Addr) (s : State),
    (s.sp.val < 16 → ∃ t, exec (.call nnn) s = .next t ∧
      t = { s with stack := t.stack, sp := t.sp, pc := BitVec.ofNat 16 nnn.toNat } ∧ t.sp.val = s.sp.val + 1 ∧
      ∀ k : Fin 16, t.stackAt k = if k.val = s.sp.val then s.pc else s.stackAt k) ∧
    (s.sp.val = 16 → exec (.call nnn) s = .next (haltedWith s .stackOverflow s.op))

/-- R152: `RET` pops the return address and leaves the entries alone, or raises `StackUnderflow` when the stack is empty. -/
def Obligations.RetPopsOrUnderflows : Prop :=
  ∀ s : State,
    (0 < s.sp.val → ∃ t, exec .ret s = .next t ∧ t = { s with sp := t.sp, pc := t.pc } ∧ t.sp.val + 1 = s.sp.val ∧
      ∀ k : Fin 16, k.val = t.sp.val → t.pc = s.stackAt k) ∧
    (s.sp.val = 0 → exec .ret s = .next (haltedWith s .stackUnderflow s.op))

/-- R153: `JP V0, nnn` jumps to `nnn + V0`, not reduced modulo 4096, or raises `InvalidAddress` above `0xFFF`. -/
def Obligations.JpV0JumpsOrRaises : Prop :=
  ∀ (nnn : Addr) (s : State),
    (nnn.toNat + (s.getV 0).toNat ≤ 0xFFF →
      exec (.jpV0 nnn) s = .next { s with pc := BitVec.ofNat 16 (nnn.toNat + (s.getV 0).toNat) }) ∧
    (0xFFF < nnn.toNat + (s.getV 0).toNat → exec (.jpV0 nnn) s = .next (haltedWith s .invalidAddress s.op))

/-- A `CALL` followed by a `RET`, whatever the called code left in the registers, in memory and in `PC`, comes back to the
instruction after the `CALL` with the depth as before. -/
def Obligations.RetReturnsAfterCall : Prop :=
  ∀ (nnn : Addr) (s : State), s.sp.val < 16 →
    ∃ t, exec (.call nnn) s = .next t ∧
      ∀ u : State, u.stack = t.stack → u.sp = t.sp →
        ∃ w, exec .ret u = .next w ∧ w = { u with sp := s.sp, pc := s.pc }

/-! ### Skips -/

/-- R160 to R164: the four register skips. -/
def Obligations.RegisterSkipsAdvancePc : Prop :=
  ∀ (x y : Nibble) (nn : Byte) (s : State),
    exec (.seImm x nn) s = .next { s with pc := if s.getV x = nn then s.pc + 2 else s.pc } ∧
    exec (.sneImm x nn) s = .next { s with pc := if s.getV x ≠ nn then s.pc + 2 else s.pc } ∧
    exec (.seReg x y) s = .next { s with pc := if s.getV x = s.getV y then s.pc + 2 else s.pc } ∧
    exec (.sneReg x y) s = .next { s with pc := if s.getV x ≠ s.getV y then s.pc + 2 else s.pc }

/-- R211, R215: the two key skips. That a code above `0x0F` is never down is the parameter `KEY_OOR_POLICY` at its default: the model's
choice, log entry 11. -/
def Obligations.KeySkipsAdvancePc : Prop :=
  ∀ (x : Nibble) (s : State),
    exec (.skp x) s = .next
      { s with pc := if (s.getV x).toNat ≤ 0x0F ∧ s.keys.getLsbD (s.getV x).toNat = true then s.pc + 2 else s.pc } ∧
    exec (.sknp x) s = .next
      { s with pc := if 0x0F < (s.getV x).toNat ∨ s.keys.getLsbD (s.getV x).toNat = false then s.pc + 2 else s.pc }

/-! ### Loads and the ALU -/

/-- R172, R173, R174: the immediate load, the immediate add (no flag), the register move. -/
def Obligations.LoadsAndImmediateAdd : Prop :=
  ∀ (x y : Nibble) (nn : Byte) (s : State),
    (∃ t, exec (.ldImm x nn) s = .next t ∧ WroteReg s t x nn) ∧
    (∃ t, exec (.addImm x nn) s = .next t ∧ WroteReg s t x (BitVec.ofNat 8 (((s.getV x).toNat + nn.toNat) % 256))) ∧
    (∃ t, exec (.ldReg x y) s = .next t ∧ WroteReg s t x (s.getV y))

/-- R175, R176, R177: the bitwise operations, bit by bit; `VF` is not written unless `x = F`. -/
def Obligations.BitwiseOpsWriteVx : Prop :=
  ∀ (x y : Nibble) (s : State),
    (∃ t b, exec (.orReg x y) s = .next t ∧ WroteReg s t x b ∧
      ∀ k, b.getLsbD k = ((s.getV x).getLsbD k || (s.getV y).getLsbD k)) ∧
    (∃ t b, exec (.andReg x y) s = .next t ∧ WroteReg s t x b ∧
      ∀ k, b.getLsbD k = ((s.getV x).getLsbD k && (s.getV y).getLsbD k)) ∧
    (∃ t b, exec (.xorReg x y) s = .next t ∧ WroteReg s t x b ∧
      ∀ k, b.getLsbD k = ((s.getV x).getLsbD k ^^ (s.getV y).getLsbD k))

/-- R178: `ADD Vx, Vy`. That with `x = F` the result stays and the flag is lost is the parameter `VF_ALIAS_ORDER` at its default: the
model's choice, log entry 11. -/
def Obligations.AddSetsResultAndCarry : Prop :=
  ∀ (x y : Nibble) (s : State),
    ∃ t, exec (.addReg x y) s = .next t ∧
      WroteFlagged s t x (BitVec.ofNat 8 (((s.getV x).toNat + (s.getV y).toNat) % 256))
        (if 255 < (s.getV x).toNat + (s.getV y).toNat then 0x01 else 0x00)

/-- R179, R181: `SUB` and `SUBN`; the flag is NOT borrow. That with `x = F` the result stays and the flag is lost is the parameter
`VF_ALIAS_ORDER` at its default: the model's choice, log entry 11. -/
def Obligations.SubtractionsSetResultAndNotBorrow : Prop :=
  ∀ (x y : Nibble) (s : State),
    (∃ t, exec (.sub x y) s = .next t ∧
      WroteFlagged s t x (BitVec.ofNat 8 (((s.getV x).toNat + 256 - (s.getV y).toNat) % 256))
        (if (s.getV y).toNat ≤ (s.getV x).toNat then 0x01 else 0x00)) ∧
    (∃ t, exec (.subn x y) s = .next t ∧
      WroteFlagged s t x (BitVec.ofNat 8 (((s.getV y).toNat + 256 - (s.getV x).toNat) % 256))
        (if (s.getV x).toNat ≤ (s.getV y).toNat then 0x01 else 0x00))

/-- R180, R182, R185: `SHR` and `SHL` work on `Vx` in place, whatever `y` is. That with `x = F` the result stays and the flag is lost is
the parameter `VF_ALIAS_ORDER` at its default: the model's choice, log entry 11. -/
def Obligations.ShiftsSetResultAndBitOut : Prop :=
  ∀ (x y : Nibble) (s : State),
    (∃ t, exec (.shr x y) s = .next t ∧
      WroteFlagged s t x (BitVec.ofNat 8 ((s.getV x).toNat / 2)) (BitVec.ofNat 8 ((s.getV x).toNat % 2))) ∧
    (∃ t, exec (.shl x y) s = .next t ∧
      WroteFlagged s t x (BitVec.ofNat 8 ((s.getV x).toNat * 2 % 256)) (BitVec.ofNat 8 ((s.getV x).toNat / 128)))

/-- R186: `RND` masks one sample of the random port, a free value; where the mask has a 0 the result has a 0. -/
def Obligations.RndMasksOneFreeSample : Prop :=
  ∀ (x : Nibble) (nn : Byte) (s : State),
    ∃ t, exec (.rnd x nn) s = .next t ∧ t = { s with v := t.v, draws := s.draws + 1 } ∧
      t.getV x = Config.rnd s.draws &&& nn ∧ t.getV x &&& ~~~nn = 0 ∧ ∀ r, r ≠ x → t.getV r = s.getV r

/-! ### The address register and memory -/

/-- R190, R191, R192: `LD I`, `ADD I` (modulo 65536, no flag), `LD F`. That `LD F` takes the low nibble of a value above `0x0F` is the
parameter `FONT_INDEX_POLICY` at its default: the model's choice, log entry 11. -/
def Obligations.AddressRegisterOps : Prop :=
  ∀ (nnn : Addr) (x : Nibble) (s : State),
    exec (.ldI nnn) s = .next { s with i := BitVec.ofNat 16 nnn.toNat } ∧
    exec (.addI x) s = .next { s with i := BitVec.ofNat 16 ((s.i.toNat + (s.getV x).toNat) % 65536) } ∧
    exec (.ldF x) s = .next { s with i := BitVec.ofNat 16 (0x050 + 5 * ((s.getV x).toNat % 16)) }

/-- R193, R86: `LD B` stores the three digits at `I`, `I+1`, `I+2`, and `I` and every other byte keep their values; past the end of
memory it raises `BadMemoryAccess` and the digits before the failing address stay written. -/
def Obligations.BcdStoresDigits : Prop :=
  ∀ (x : Nibble) (s : State), s.mem.wf = true →
    (s.i.toNat + 2 ≤ 0xFFF → ∃ t, exec (.ldB x) s = .next t ∧ t = { s with mem := t.mem } ∧
      t.mem.read s.i.toNat = BitVec.ofNat 8 ((s.getV x).toNat / 100) ∧
      t.mem.read (s.i.toNat + 1) = BitVec.ofNat 8 ((s.getV x).toNat / 10 % 10) ∧
      t.mem.read (s.i.toNat + 2) = BitVec.ofNat 8 ((s.getV x).toNat % 10) ∧
      MemKeptOutside s t s.i.toNat (s.i.toNat + 3)) ∧
    (0xFFF < s.i.toNat + 2 → ∃ t, exec (.ldB x) s = .next t ∧
      t = { haltedWith s .badMemoryAccess s.op with mem := t.mem } ∧
      (s.i.toNat ≤ 0xFFF → t.mem.read s.i.toNat = BitVec.ofNat 8 ((s.getV x).toNat / 100)) ∧
      (s.i.toNat + 1 ≤ 0xFFF → t.mem.read (s.i.toNat + 1) = BitVec.ofNat 8 ((s.getV x).toNat / 10 % 10)) ∧
      MemKeptOutside s t s.i.toNat 0x1000)

/-- R194, R86, R196: `LD [I], Vx` stores `V0` .. `Vx` at ascending addresses from `I` and advances `I` by `x + 1`; past the end of
memory it raises `BadMemoryAccess`, the bytes before the failing address stay written and `I` is not advanced. -/
def Obligations.BlockStoreWritesAndAdvances : Prop :=
  ∀ (x : Nibble) (s : State), s.mem.wf = true →
    (s.i.toNat + x.toNat ≤ 0xFFF → ∃ t, exec (.storeRegs x) s = .next t ∧
      t = { s with mem := t.mem, i := BitVec.ofNat 16 (s.i.toNat + x.toNat + 1) } ∧
      (∀ k : Nibble, k.toNat ≤ x.toNat → t.mem.read (s.i.toNat + k.toNat) = s.getV k) ∧
      MemKeptOutside s t s.i.toNat (s.i.toNat + x.toNat + 1)) ∧
    (0xFFF < s.i.toNat + x.toNat → ∃ t, exec (.storeRegs x) s = .next t ∧
      t = { haltedWith s .badMemoryAccess s.op with mem := t.mem } ∧
      (∀ k : Nibble, k.toNat ≤ x.toNat → s.i.toNat + k.toNat ≤ 0xFFF → t.mem.read (s.i.toNat + k.toNat) = s.getV k) ∧
      MemKeptOutside s t s.i.toNat 0x1000)

/-- R195, R86, R196: `LD Vx, [I]` loads `V0` .. `Vx` from ascending addresses from `I` and advances `I` by `x + 1`, memory is
unchanged; past the end of memory it raises `BadMemoryAccess`, the registers before the failing address stay loaded and `I` is not
advanced. -/
def Obligations.BlockLoadReadsAndAdvances : Prop :=
  ∀ (x : Nibble) (s : State),
    (s.i.toNat + x.toNat ≤ 0xFFF → ∃ t, exec (.loadRegs x) s = .next t ∧
      t = { s with v := t.v, i := BitVec.ofNat 16 (s.i.toNat + x.toNat + 1) } ∧
      (∀ k : Nibble, k.toNat ≤ x.toNat → t.getV k = s.mem.read (s.i.toNat + k.toNat)) ∧
      ∀ k : Nibble, x.toNat < k.toNat → t.getV k = s.getV k) ∧
    (0xFFF < s.i.toNat + x.toNat → ∃ t, exec (.loadRegs x) s = .next t ∧
      t = { haltedWith s .badMemoryAccess s.op with v := t.v } ∧
      (∀ k : Nibble, k.toNat ≤ x.toNat → s.i.toNat + k.toNat ≤ 0xFFF → t.getV k = s.mem.read (s.i.toNat + k.toNat)) ∧
      ∀ k : Nibble, (x.toNat < k.toNat ∨ 0xFFF < s.i.toNat + k.toNat) → t.getV k = s.getV k)

/-- A block store, whatever then happens to the registers, and a block load from the same address bring the registers back. -/
def Obligations.BlockLoadRestoresBlockStore : Prop :=
  ∀ (x : Nibble) (s : State), s.mem.wf = true → s.i.toNat + x.toNat ≤ 0xFFF →
    ∃ t, exec (.storeRegs x) s = .next t ∧
      ∀ w : Vector Byte 16, ∃ u, exec (.loadRegs x) { t with v := w, i := s.i } = .next u ∧ u.i = t.i ∧ u.mem = t.mem ∧
        ∀ k : Nibble, k.toNat ≤ x.toNat → u.getV k = s.getV k

/-- R91: a store over the next instruction is what the next fetch reads. -/
def Obligations.StoreSeenByNextFetch : Prop :=
  ∀ (x : Nibble) (s : State), s.mem.wf = true → s.i = s.pc → 1 ≤ x.toNat → s.i.toNat + x.toNat ≤ 0xFFF →
    ∃ t, exec (.storeRegs x) s = .next t ∧ t.fetchOpcode = some (opcodeOfBytes (s.getV 0) (s.getV 1))

/-- R85: on memory in canonical form a write is what a read of the cell then gives, every other cell reads as before, and the form is
kept. -/
def Obligations.ReadAfterWriteGivesByte : Prop :=
  ∀ (m : Memory) (a : Nat) (b : Byte), m.wf = true → a < 0x1000 →
    (m.write a b).read a = b ∧ (∀ a', a' ≠ a → (m.write a b).read a' = m.read a') ∧ (m.write a b).wf = true

/-- R84: no instruction but `LD B` and `LD [I]` changes memory. -/
def Obligations.OnlyStoresChangeMemory : Prop :=
  ∀ (i : Instr) (s t : State), (∀ x, i ≠ .ldB x) → (∀ x, i ≠ .storeRegs x) → exec i s = .next t → t.mem = s.mem

/-! ### The display -/

/-- R200: `CLS` is one `clear`; every pixel becomes 0; nothing else changes. -/
def Obligations.ClsClearsDisplay : Prop :=
  ∀ s : State, ∃ t, exec .cls s = .next t ∧ t = { s with display := t.display, txns := .clear :: s.txns } ∧
    ∀ cx cy, t.display.pixel cx cy = false

/-- R201, R204: `DRW` with `n >= 1` and all rows in range is one `draw` transaction at the latched coordinates with the bytes at `I` and
up, and copies the answer into `VF`; `I`, memory and every other register keep their values. That display and answer are those of
the reference behaviour R205, one of the two treatments of U11, is the model's choice, log entry 6. `DrwEdgeCases` has the rest. -/
def Obligations.DrwDrawsSprite : Prop :=
  ∀ (x y n : Nibble) (s : State), n ≠ 0 → s.i.toNat + (n.toNat - 1) ≤ 0xFFF →
    ∃ t rows, exec (.drw x y n) s = .next t ∧ rows.length = n.toNat ∧
      (∀ k, k < n.toNat → rows.getD k 0 = s.mem.read (s.i.toNat + k)) ∧
      t = { s with
        v := t.v, display := (s.display.draw (s.getV x) (s.getV y) rows).1,
        txns := .draw (s.getV x) (s.getV y) rows :: s.txns } ∧
      t.getV 0xF = (if (s.display.draw (s.getV x) (s.getV y) rows).2 = true then 0x01 else 0x00) ∧
      ∀ r, r ≠ 0xF → t.getV r = s.getV r

/-- R202, R203: a row out of range raises with no transaction and `VF` unchanged; with `n = 0` nothing is read or drawn, `VF` is 0. -/
def Obligations.DrwEdgeCases : Prop :=
  ∀ (x y n : Nibble) (s : State),
    (n ≠ 0 → 0xFFF < s.i.toNat + (n.toNat - 1) → exec (.drw x y n) s = .next (haltedWith s .badMemoryAccess s.op)) ∧
    (n = 0 → ∃ t, exec (.drw x y n) s = .next t ∧ WroteReg s t 0xF 0x00)

/-- R205, R206: drawing changes exactly the pixels a sprite bit falls on, with wraparound on both axes, and answers whether one of
them was set. -/
def Obligations.DrawXorsSpriteOntoGrid : Prop :=
  ∀ (d : Display) (x y : Byte) (rows : List Byte), rows.length ≤ 15 →
    (∀ cx cy, (d.draw x y rows).1.pixel cx cy = (d.pixel cx cy ^^ SpriteBitAt x y rows cx cy)) ∧
    ((d.draw x y rows).2 = true ↔ ∃ cx cy, d.pixel cx cy = true ∧ SpriteBitAt x y rows cx cy = true)

/-- Drawing the same sprite twice brings every pixel back; on a cleared display the first draw does not collide, and the second does
exactly when some row has a bit (the source's example). -/
def Obligations.DrawTwiceRestoresGrid : Prop :=
  ∀ (x y : Byte) (rows : List Byte), rows.length ≤ 15 →
    (∀ (d : Display) cx cy, ((d.draw x y rows).1.draw x y rows).1.pixel cx cy = d.pixel cx cy) ∧
    (Display.cleared.draw x y rows).2 = false ∧
    (((Display.cleared.draw x y rows).1.draw x y rows).2 = true ↔ ∃ b ∈ rows, b ≠ 0)

/-- R204: one `draw` transaction for a `DRW` with `n >= 1` whose rows are in range, one `clear` for a `CLS`, none otherwise. -/
def Obligations.DisplayTransactionsOnlyFromClsAndDrw : Prop :=
  ∀ (i : Instr) (s t : State), exec i s = .next t →
    (t.txns = s.txns ∧ t.display = s.display ∧ i ≠ .cls ∧
      ∀ x y n, i = .drw x y n → n = 0 ∨ 0xFFF < s.i.toNat + (n.toNat - 1)) ∨
    (i = .cls ∧ t.txns = .clear :: s.txns) ∨
    ∃ x y n rows, i = .drw x y n ∧ n ≠ 0 ∧ rows.length = n.toNat ∧ t.txns = .draw (s.getV x) (s.getV y) rows :: s.txns

/-! ### Keyboard, timers -/

/-- R212: `LD Vx, K` begins the key wait and changes nothing else. -/
def Obligations.KeyReadSuspends : Prop :=
  ∀ (x : Nibble) (s : State), exec (.ldVxK x) s = .next { s with kx := x, phase := .keyPress }

/-- R213: with no key down the wait goes on; with `k` the lowest key down it is latched. -/
def Obligations.KeyWaitLatchesLowestKey : Prop :=
  ∀ (s : State) (rest : List Event), s.agenda = .keyProgress :: rest → s.phase = .keyPress →
    (s.keys = 0 → step s = .next { s with agenda := rest }) ∧
    ∀ k : Nibble, s.keys.getLsbD k.toNat = true → (∀ j, j < k.toNat → s.keys.getLsbD j = false) →
      step s = .next { s with agenda := rest, kk := k, phase := .keyRelease }

/-- R214: while the latched key is down the wait goes on; when it is up its code is written to `V[KX]` and the step retires with
`Continue`. -/
def Obligations.KeyWaitCompletesOnRelease : Prop :=
  ∀ (s : State) (rest : List Event), s.agenda = .keyProgress :: rest → s.phase = .keyRelease → s.pc = s.pc0 + 2 →
    (s.keys.getLsbD s.kk.toNat = true → step s = .next { s with agenda := rest }) ∧
    (s.keys.getLsbD s.kk.toNat = false → ∃ t, step s = .next t ∧
      t = { s with agenda := rest, phase := .idle, v := t.v } ∧ t.getV s.kx = BitVec.ofNat 8 s.kk.toNat ∧
      ∀ r, r ≠ s.kx → t.getV r = s.getV r)

/-- R216, R217, R218 with R223: the timer instructions; `sound_on` follows `ST` at once. -/
def Obligations.TimerInstructions : Prop :=
  ∀ (x : Nibble) (s : State),
    (∃ t, exec (.ldVxDt x) s = .next t ∧ WroteReg s t x s.dt) ∧
    exec (.ldDtVx x) s = .next { s with dt := s.getV x } ∧
    (∃ t, exec (.ldStVx x) s = .next t ∧ t = { s with st := s.getV x } ∧ (t.soundOn = true ↔ s.getV x ≠ 0))

/-- R221, R234: a pending timer tick is delivered in every phase; it counts each timer that is not 0 down by one and changes nothing
else. That it goes before a pending execution tick is the parameter `DELIVERY_PRIORITY` at its default: the model's choice, log
entry 13. -/
def Obligations.TimerTickDeliveredFirst : Prop :=
  ∀ (s : State) (rest : List Event), s.agenda = .deliver :: rest → s.timerPend = true →
    step s = .next
      { s with
        agenda := rest, timerPend := false,
        dt := BitVec.ofNat 8 (s.dt.toNat - 1), st := BitVec.ofNat 8 (s.st.toNat - 1) }

/-- R222: after `n` ticks a timer that stood at `v` stands at `v - n`, and at 0 from the `v`-th tick on. -/
def Obligations.TimersCountDownToZero : Prop :=
  ∀ (n : Nat) (s : State),
    (State.timerTick^[n] s).dt.toNat = s.dt.toNat - n ∧ (State.timerTick^[n] s).st.toNat = s.st.toNat - n

/-! ### The scheduler and the host -/

/-- R229, R230: the triggers fire only while armed; an execution tick is dropped when one is pending or a step is suspended; timer
ticks coalesce. -/
def Obligations.TriggersSetPendingFlags : Prop :=
  ∀ (s : State) (rest : List Event),
    (s.agenda = .execFire :: rest →
      step s = .next { s with agenda := rest, execPend := s.execPend || (s.armed && decide (s.phase = .idle)) }) ∧
    (s.agenda = .timerFire :: rest → step s = .next { s with agenda := rest, timerPend := s.timerPend || s.armed })

/-- R226, R227: `start()` is refused while halted, has no effect while armed, and otherwise arms with nothing pending; `stop()`
disarms and discards what is pending. -/
def Obligations.StartAndStopSetScheduler : Prop :=
  ∀ (s : State) (rest : List Event),
    (s.agenda = .cmdStart :: rest → s.halt ≠ .run → step s = .next { s with agenda := rest, cmdStatus := .refused }) ∧
    (s.agenda = .cmdStart :: rest → s.halt = .run → s.armed = true →
      ∃ c, step s = .next { s with agenda := rest, cmdStatus := c }) ∧
    (s.agenda = .cmdStart :: rest → s.halt = .run → s.armed = false →
      ∃ c, step s = .next { s with agenda := rest, armed := true, execPend := false, timerPend := false, cmdStatus := c }) ∧
    (s.agenda = .cmdStop :: rest →
      ∃ c, step s = .next { s with agenda := rest, armed := false, execPend := false, timerPend := false, cmdStatus := c })

/-- R242: starting and at once stopping the scheduler delivers nothing and leaves everything but the command answer as it was. -/
def Obligations.StartThenStopDeliversNothing : Prop :=
  ∀ (s : State) (rest : List Event), s.agenda = .cmdStart :: .cmdStop :: rest → s.Inv → s.armed = false →
    ∃ c, core.run 2 s = .next { s with agenda := rest, cmdStatus := c }

/-- R82: `cmd_load` writes the image at ascending addresses, or refuses, or reports `LoadTooLarge`, writing nothing. That acceptance is
checked before the bound is the model's reading (log entry 8). -/
def Obligations.LoadWritesImageOrRefuses : Prop :=
  ∀ (s : State) (rest : List Event) (start : Word) (bytes : List Byte), s.agenda = .cmdLoad start bytes :: rest →
    ((s.armed = true ∨ s.phase ≠ .idle) → step s = .next { s with agenda := rest, cmdStatus := .refused }) ∧
    (s.armed = false → s.phase = .idle → 0xFFF < start.toNat + bytes.length →
      step s = .next { s with agenda := rest, cmdStatus := .loadTooLarge }) ∧
    (s.armed = false → s.phase = .idle → start.toNat + bytes.length ≤ 0xFFF → s.mem.wf = true →
      ∃ t, step s = .next t ∧ t = { s with agenda := rest, cmdStatus := .ok, mem := t.mem } ∧
        (∀ k, k < bytes.length → t.mem.read (start.toNat + k) = bytes.getD k 0) ∧
        MemKeptOutside s t start.toNat (start.toNat + bytes.length))

/-- R292, R293: `reset(entryAddress)` sets `PC` and clears `STATUS` and changes nothing else, or refuses, or answers
`InvalidAddress`. -/
def Obligations.HostResetSetsPcOnly : Prop :=
  ∀ (s : State) (rest : List Event) (entry : Word), s.agenda = .cmdReset entry :: rest →
    (s.armed = true → step s = .next { s with agenda := rest, cmdStatus := .refused }) ∧
    (s.armed = false → 0xFFE < entry.toNat → step s = .next { s with agenda := rest, cmdStatus := .invalidAddress }) ∧
    (s.armed = false → entry.toNat ≤ 0xFFE → ∃ t, step s = .next t ∧ t.statusByte = 0 ∧
      t = { s with
        agenda := rest, cmdStatus := .ok, pc := entry, halt := .run, errCode := none, phase := .idle })

/-- R53, R291: the core's state after power-on, and power-on at any time brings it back. The font bytes and the `0x00` elsewhere are the
parameters `FONT` and `MEM_POWERON` at their defaults: the model's choice, log entry 12. That the event keeps the key levels is log
entry 15; the command answer, the display, the record of transactions and the model's counter are left open. -/
def Obligations.PowerOnValues : Prop :=
  ((∀ x, State.reset.getV x = 0) ∧ (∀ k, State.reset.stackAt k = 0) ∧
    State.reset.i = 0 ∧ State.reset.pc = 0 ∧ State.reset.sp.val = 0 ∧ State.reset.dt = 0 ∧ State.reset.st = 0 ∧
    State.reset.soundOn = false ∧ State.reset.statusByte = 0 ∧ State.reset.errPc = 0 ∧ State.reset.errOp = 0 ∧
    State.reset.schedBits = 0 ∧ State.reset.kx = 0 ∧ State.reset.kk = 0 ∧ State.reset.op = 0 ∧ State.reset.pc0 = 0) ∧
  (∀ a, a < 0x1000 → ¬ (0x050 ≤ a ∧ a < 0x0A0) → State.reset.mem.read a = 0) ∧
  (List.range 16).map (fun g => (List.range 5).map (fun k => State.reset.mem.read (0x050 + 5 * g + k))) =
    [[0xF0, 0x90, 0x90, 0x90, 0xF0], [0x20, 0x60, 0x20, 0x20, 0x70],
     [0xF0, 0x10, 0xF0, 0x80, 0xF0], [0xF0, 0x10, 0xF0, 0x10, 0xF0],
     [0x90, 0x90, 0xF0, 0x10, 0x10], [0xF0, 0x80, 0xF0, 0x10, 0xF0],
     [0xF0, 0x80, 0xF0, 0x90, 0xF0], [0xF0, 0x10, 0x20, 0x40, 0x40],
     [0xF0, 0x90, 0xF0, 0x90, 0xF0], [0xF0, 0x90, 0xF0, 0x10, 0xF0],
     [0xF0, 0x90, 0xF0, 0x90, 0x90], [0xE0, 0x90, 0xE0, 0x90, 0xE0],
     [0xF0, 0x80, 0x80, 0x80, 0xF0], [0xE0, 0x90, 0x90, 0x90, 0xE0],
     [0xF0, 0x80, 0xF0, 0x80, 0xF0], [0xF0, 0x80, 0xF0, 0x80, 0x80]] ∧
  ∀ (s : State) (rest : List Event), s.agenda = .powerOn :: rest →
    ∃ t, step s = .next t ∧
      t = { State.reset with
        keys := s.keys, cmdStatus := t.cmdStatus, display := t.display, txns := t.txns, agenda := rest, draws := t.draws }

/-! ### Rules of the whole machine -/

/-- R32: nothing but an instruction writes a general register: not a timer tick, a trigger fire, a key change or a host command short
of power-on. -/
def Obligations.RegistersWrittenOnlyByInstructions : Prop :=
  ∀ (s t : State) (e : Event) (rest : List Event), s.agenda = e :: rest → step s = .next t → t.v ≠ s.v →
    (e = .deliver ∧ s.timerPend = false ∧ s.execPend = true ∧ s.phase = .idle ∧ s.halt = .run) ∨
    (e = .keyProgress ∧ s.phase = .keyRelease) ∨ e = .powerOn

/-- R38: an instruction that is no flag producer and does not name `VF` as its destination leaves `VF` alone. -/
def Obligations.FlagWrittenOnlyByFlagProducers : Prop :=
  ∀ (i : Instr) (s t : State), exec i s = .next t → t.getV 0xF ≠ s.getV 0xF →
    (∃ x y, i = .addReg x y ∨ i = .sub x y ∨ i = .subn x y ∨ i = .shr x y ∨ i = .shl x y) ∨ (∃ x y n, i = .drw x y n) ∨
    (∃ nn, i = .ldImm 0xF nn ∨ i = .addImm 0xF nn ∨ i = .rnd 0xF nn) ∨
    (∃ y, i = .ldReg 0xF y ∨ i = .orReg 0xF y ∨ i = .andReg 0xF y ∨ i = .xorReg 0xF y) ∨
    i = .ldVxDt 0xF ∨ i = .loadRegs 0xF

/-- The good-state invariant holds after power-on. -/
def Obligations.InvAfterPowerOn : Prop := State.reset.Inv

/-- Every step keeps the good-state invariant, whatever event it performs. -/
def Obligations.StepKeepsInv : Prop := ∀ s t : State, s.Inv → step s = .next t → t.Inv
end

