-- ==== Sys2Proof/Laws/Decode.lean ====
section
/-! SUPPORT. Opcodes and their fields as numbers: what each field is of an opcode, what each format assembles, and that assembling
and taking apart undo each other (R107, R108). -/

namespace Sys2Proof

section FieldsAsNumbers

variable (op : Word)

theorem toNat_n1 : (Opcode.n1 op).toNat = op.toNat / 4096 := by
  have := op.isLt
  simp only [Opcode.n1, BitVec.extractLsb'_toNat, Nat.shiftRight_eq_div_pow]; omega
theorem toNat_x : (Opcode.x op).toNat = op.toNat / 256 % 16 := by
  simp only [Opcode.x, BitVec.extractLsb'_toNat, Nat.shiftRight_eq_div_pow]
theorem toNat_y : (Opcode.y op).toNat = op.toNat / 16 % 16 := by
  simp only [Opcode.y, BitVec.extractLsb'_toNat, Nat.shiftRight_eq_div_pow]
theorem toNat_n : (Opcode.n op).toNat = op.toNat % 16 := by
  simp only [Opcode.n, BitVec.extractLsb'_toNat, Nat.shiftRight_eq_div_pow]; omega
theorem toNat_nn : (Opcode.nn op).toNat = op.toNat % 256 := by
  simp only [Opcode.nn, BitVec.extractLsb'_toNat, Nat.shiftRight_eq_div_pow]; omega
theorem toNat_nnn : (Opcode.nnn op).toNat = op.toNat % 4096 := by
  simp only [Opcode.nnn, BitVec.extractLsb'_toNat, Nat.shiftRight_eq_div_pow]; omega

end FieldsAsNumbers

/-- A field shifted into place and a smaller one beside it: the bits do not meet, so the sum is the number. -/
theorem toNat_shiftLeft_or {hi lo : Word} {k : Nat} (hh : hi.toNat * 2 ^ k < 2 ^ 16) (hl : lo.toNat < 2 ^ k) :
    ((hi <<< k) ||| lo).toNat = hi.toNat * 2 ^ k + lo.toNat := by
  rw [BitVec.toNat_or, BitVec.toNat_shiftLeft, Nat.shiftLeft_eq, Nat.mod_eq_of_lt hh, ← Nat.shiftLeft_eq,
    Nat.shiftLeft_add_eq_or_of_lt hl]

theorem toNat_widen {w : Nat} (b : BitVec w) (h : w ≤ 16) : (b.zeroExtend 16).toNat = b.toNat := by
  exact BitVec.toNat_setWidth_of_le h

section Formats

variable (n1 x y n : Nibble) (nn : Byte) (nnn : Addr)

theorem toNat_encodeNNN : (encodeNNN n1 nnn).toNat = n1.toNat * 4096 + nnn.toNat := by
  have h1 := n1.isLt
  have h2 := nnn.isLt
  rw [encodeNNN, toNat_shiftLeft_or (by rw [toNat_widen _ (by omega)]; omega) (by rw [toNat_widen _ (by omega)]; omega),
    toNat_widen _ (by omega), toNat_widen _ (by omega)]
  omega

theorem toNat_encodeXNN : (encodeXNN n1 x nn).toNat = n1.toNat * 4096 + x.toNat * 256 + nn.toNat := by
  have h1 := n1.isLt
  have h2 := x.isLt
  have h3 := nn.isLt
  have hx : ((x.zeroExtend 16 : Word) <<< 8 ||| nn.zeroExtend 16).toNat = x.toNat * 256 + nn.toNat := by
    rw [toNat_shiftLeft_or (by rw [toNat_widen _ (by omega)]; omega) (by rw [toNat_widen _ (by omega)]; omega),
      toNat_widen _ (by omega), toNat_widen _ (by omega)]
    omega
  rw [encodeXNN, BitVec.or_assoc, toNat_shiftLeft_or (by rw [toNat_widen _ (by omega)]; omega) (by rw [hx]; omega), hx,
    toNat_widen _ (by omega)]
  omega

theorem toNat_encodeXYN : (encodeXYN n1 x y n).toNat = n1.toNat * 4096 + x.toNat * 256 + y.toNat * 16 + n.toNat := by
  have h1 := n1.isLt
  have h2 := x.isLt
  have h3 := y.isLt
  have h4 := n.isLt
  have hy : ((y.zeroExtend 16 : Word) <<< 4 ||| n.zeroExtend 16).toNat = y.toNat * 16 + n.toNat := by
    rw [toNat_shiftLeft_or (by rw [toNat_widen _ (by omega)]; omega) (by rw [toNat_widen _ (by omega)]; omega),
      toNat_widen _ (by omega), toNat_widen _ (by omega)]
    omega
  have hx : ((x.zeroExtend 16 : Word) <<< 8 ||| ((y.zeroExtend 16 : Word) <<< 4 ||| n.zeroExtend 16)).toNat =
      x.toNat * 256 + (y.toNat * 16 + n.toNat) := by
    rw [toNat_shiftLeft_or (by rw [toNat_widen _ (by omega)]; omega) (by rw [hy]; omega), hy, toNat_widen _ (by omega)]
    omega
  rw [encodeXYN, BitVec.or_assoc, BitVec.or_assoc,
    toNat_shiftLeft_or (by rw [toNat_widen _ (by omega)]; omega) (by rw [hx]; omega), hx, toNat_widen _ (by omega)]
  omega

theorem toNat_opcodeOfBytes (hi lo : Byte) : (opcodeOfBytes hi lo).toNat = hi.toNat * 256 + lo.toNat := by
  have h1 := hi.isLt
  have h2 := lo.isLt
  rw [opcodeOfBytes, toNat_shiftLeft_or (by rw [toNat_widen _ (by omega)]; omega) (by rw [toNat_widen _ (by omega)]; omega),
    toNat_widen _ (by omega), toNat_widen _ (by omega)]
  omega

@[simp] theorem n1_encodeXYN : Opcode.n1 (encodeXYN n1 x y n) = n1 := by
  apply BitVec.eq_of_toNat_eq; rw [toNat_n1, toNat_encodeXYN]; omega
@[simp] theorem x_encodeXYN : Opcode.x (encodeXYN n1 x y n) = x := by
  apply BitVec.eq_of_toNat_eq; rw [toNat_x, toNat_encodeXYN]; omega
@[simp] theorem y_encodeXYN : Opcode.y (encodeXYN n1 x y n) = y := by
  apply BitVec.eq_of_toNat_eq; rw [toNat_y, toNat_encodeXYN]; omega
@[simp] theorem n_encodeXYN : Opcode.n (encodeXYN n1 x y n) = n := by
  apply BitVec.eq_of_toNat_eq; rw [toNat_n, toNat_encodeXYN]; omega
@[simp] theorem n1_encodeXNN : Opcode.n1 (encodeXNN n1 x nn) = n1 := by
  apply BitVec.eq_of_toNat_eq; rw [toNat_n1, toNat_encodeXNN]; omega
@[simp] theorem x_encodeXNN : Opcode.x (encodeXNN n1 x nn) = x := by
  apply BitVec.eq_of_toNat_eq; rw [toNat_x, toNat_encodeXNN]; omega
@[simp] theorem nn_encodeXNN : Opcode.nn (encodeXNN n1 x nn) = nn := by
  apply BitVec.eq_of_toNat_eq; rw [toNat_nn, toNat_encodeXNN]; omega
@[simp] theorem n1_encodeNNN : Opcode.n1 (encodeNNN n1 nnn) = n1 := by
  apply BitVec.eq_of_toNat_eq; rw [toNat_n1, toNat_encodeNNN]; omega
@[simp] theorem nnn_encodeNNN : Opcode.nnn (encodeNNN n1 nnn) = nnn := by
  apply BitVec.eq_of_toNat_eq; rw [toNat_nnn, toNat_encodeNNN]; omega

end Formats

section Recompose

variable (op : Word)

theorem encodeXYN_fields : encodeXYN (Opcode.n1 op) (Opcode.x op) (Opcode.y op) (Opcode.n op) = op := by
  apply BitVec.eq_of_toNat_eq; rw [toNat_encodeXYN, toNat_n1, toNat_x, toNat_y, toNat_n]; omega
theorem encodeXNN_fields : encodeXNN (Opcode.n1 op) (Opcode.x op) (Opcode.nn op) = op := by
  apply BitVec.eq_of_toNat_eq; rw [toNat_encodeXNN, toNat_n1, toNat_x, toNat_nn]; omega
theorem encodeNNN_fields : encodeNNN (Opcode.n1 op) (Opcode.nnn op) = op := by
  apply BitVec.eq_of_toNat_eq; rw [toNat_encodeNNN, toNat_n1, toNat_nnn]; omega

/-- The two bytes of an opcode, put together as a fetch does (R76). -/
theorem opcodeOfBytes_high_low : opcodeOfBytes (opcodeHigh op) (opcodeLow op) = op := by
  have := op.isLt
  apply BitVec.eq_of_toNat_eq
  simp only [toNat_opcodeOfBytes, opcodeHigh, opcodeLow, BitVec.extractLsb'_toNat, Nat.shiftRight_eq_div_pow]
  omega

end Recompose

end Sys2Proof
end

