-- ==== Sys2Proof/Laws/Display.lean ====
section
/-! SUPPORT. The laws of the reference display: one flip changes one pixel. -/

namespace Sys2Proof.Machine.Display

variable (d : Display) (cx : Fin 64) (cy : Fin 32)

@[simp] theorem pixel_cleared : cleared.pixel cx cy = false := by
  simp [pixel, background, cleared]

/-- The flipped pixel is the other value, every other pixel is the same. -/
theorem pixel_flip (cx' : Fin 64) (cy' : Fin 32) :
    (d.flip cx cy).pixel cx' cy' = ((d.pixel cx' cy') ^^ decide (cx' = cx ∧ cy' = cy)) := by
  by_cases hy : cy' = cy
  · subst hy
    simp [pixel, flip, background, Fin.ext_iff]
  · have hv : cy.val ≠ cy'.val := fun h => hy (Fin.ext h.symm)
    simp [pixel, flip, background, hy, Vector.getElem_set_ne _ _ hv]

theorem pixel_flip_same : (d.flip cx cy).pixel cx cy = !d.pixel cx cy := by
  simp [pixel_flip]

theorem pixel_flip_ne {cx' : Fin 64} {cy' : Fin 32} (h : ¬ (cx' = cx ∧ cy' = cy)) :
    (d.flip cx cy).pixel cx' cy' = d.pixel cx' cy' := by
  simp [pixel_flip, h]

/-- One sprite bit: the pixel it stands on changes by it, and it collides when both were set. -/
theorem drawBit_eq (acc : Display × Bool) (bit : Bool) :
    drawBit acc cx cy bit = (if bit then acc.1.flip cx cy else acc.1, acc.2 || (bit && acc.1.pixel cx cy)) := by
  cases bit <;> simp [drawBit]

end Sys2Proof.Machine.Display
end

