-- ==== Sys2Proof/Laws/Memory.lean ====
section
/-! SUPPORT. The laws of memory: what a read gives after a write, and that every write keeps the canonical form. -/

namespace Sys2Proof.Machine.Memory

theorem wfFrom_mono {lo lo' : Nat} {m : Memory} (h : wfFrom lo m = true) (hl : lo' ≤ lo) : wfFrom lo' m = true := by
  cases m with
  | nil => rfl
  | cons c m =>
    simp only [wfFrom, Bool.and_eq_true, decide_eq_true_eq] at h ⊢
    exact ⟨⟨⟨hl.trans h.1.1.1, h.1.1.2⟩, h.1.2⟩, h.2⟩

theorem wfFrom_cons {lo k : Nat} {b : Byte} {m : Memory} :
    wfFrom lo ((k, b) :: m) = true ↔
      lo ≤ k ∧ k < Config.memSize ∧ b ≠ powerOnByte k ∧ wfFrom (k + 1) m = true := by
  simp only [wfFrom, Bool.and_eq_true, decide_eq_true_eq, and_assoc]

/-- An address below every listed one reads as unlisted. -/
theorem read_of_lt {lo a : Nat} {m : Memory} (h : wfFrom lo m = true) (ha : a < lo) : m.read a = powerOnByte a := by
  induction m generalizing lo with
  | nil => rfl
  | cons c m ih =>
    obtain ⟨k, b⟩ := c
    obtain ⟨hk, -, -, hm⟩ := wfFrom_cons.mp h
    rw [read, if_neg (by omega)]
    exact ih hm (by omega)

theorem read_put_ne {a a' : Nat} (b : Byte) (m : Memory) (h : a' ≠ a) : (put a b m).read a' = m.read a' := by
  unfold put
  split
  · rfl
  · rw [read, if_neg (Ne.symm h)]

theorem read_put_same {lo a : Nat} (b : Byte) {m : Memory} (h : wfFrom lo m = true) (ha : a < lo) :
    (put a b m).read a = b := by
  unfold put
  split
  next hb => rw [read_of_lt h ha, hb]
  next => rw [read, if_pos rfl]

theorem wfFrom_put {lo a : Nat} {b : Byte} {m : Memory} (hm : wfFrom (a + 1) m = true) (hl : lo ≤ a)
    (ha : a < Config.memSize) : wfFrom lo (put a b m) = true := by
  unfold put
  split
  next => exact wfFrom_mono hm (by omega)
  next hb => exact wfFrom_cons.mpr ⟨hl, ha, hb, hm⟩

/-- Another cell reads as before the write. -/
theorem read_write_ne (m : Memory) {a a' : Nat} (b : Byte) (h : a' ≠ a) : (m.write a b).read a' = m.read a' := by
  induction m with
  | nil => exact read_put_ne b [] h
  | cons c m ih =>
    obtain ⟨k, d⟩ := c
    rw [write]
    split
    · exact read_put_ne b _ h
    · split
      next hk => rw [read_put_ne b _ h, read, if_neg (by omega)]
      next => rw [read, read, ih]

theorem read_write_same_from {lo a : Nat} {m : Memory} (b : Byte) (h : wfFrom lo m = true) :
    (m.write a b).read a = b := by
  induction m generalizing lo with
  | nil => exact read_put_same (lo := a + 1) b (m := []) rfl (by omega)
  | cons c m ih =>
    obtain ⟨k, d⟩ := c
    have hc := wfFrom_cons.mp h
    rw [write]
    split
    next hk => exact read_put_same b (wfFrom_cons.mpr ⟨le_refl k, hc.2.1, hc.2.2.1, hc.2.2.2⟩) hk
    next =>
      split
      next hk => exact read_put_same b hc.2.2.2 (by omega)
      next => rw [read, if_neg (by omega)]; exact ih hc.2.2.2

/-- The written cell reads as the byte written. -/
theorem read_write_same {m : Memory} (a : Nat) (b : Byte) (h : m.wf = true) : (m.write a b).read a = b :=
  read_write_same_from b h

theorem wfFrom_write {lo a : Nat} {b : Byte} {m : Memory} (h : wfFrom lo m = true) (hl : lo ≤ a)
    (ha : a < Config.memSize) : wfFrom lo (m.write a b) = true := by
  induction m generalizing lo with
  | nil => exact wfFrom_put rfl hl ha
  | cons c m ih =>
    obtain ⟨k, d⟩ := c
    have hc := wfFrom_cons.mp h
    rw [write]
    split
    next hk => exact wfFrom_put (wfFrom_cons.mpr ⟨hk, hc.2.1, hc.2.2.1, hc.2.2.2⟩) hl ha
    next =>
      split
      next hk => exact wfFrom_put (hk ▸ hc.2.2.2) hl ha
      next => exact wfFrom_cons.mpr ⟨hc.1, hc.2.1, hc.2.2.1, ih hc.2.2.2 (by omega)⟩

/-- A write of an existing cell keeps the canonical form. -/
theorem wf_write {m : Memory} {a : Nat} (b : Byte) (h : m.wf = true) (ha : a < Config.memSize) :
    (m.write a b).wf = true :=
  wfFrom_write h (Nat.zero_le a) ha

/-- A block write keeps the canonical form. -/
theorem wf_writeList {m : Memory} {a : Nat} (bs : List Byte) (h : m.wf = true)
    (ha : a + bs.length ≤ Config.memSize) : (m.writeList a bs).wf = true := by
  induction bs generalizing m a with
  | nil => exact h
  | cons b bs ih =>
    simp only [List.length_cons] at ha
    exact ih (wf_write b h (by omega)) (by omega)

/-- Outside the block every cell reads as before. -/
theorem read_writeList_outside (m : Memory) {a a' : Nat} (bs : List Byte) (h : a' < a ∨ a + bs.length ≤ a') :
    (m.writeList a bs).read a' = m.read a' := by
  induction bs generalizing m a with
  | nil => rfl
  | cons b bs ih =>
    simp only [List.length_cons] at h
    rw [writeList, ih _ (by omega), read_write_ne _ _ (by omega)]

/-- Inside the block the cells read as the bytes written, in ascending order. -/
theorem read_writeList_inside {m : Memory} {a : Nat} {bs : List Byte} (h : m.wf = true)
    (ha : a + bs.length ≤ Config.memSize) {k : Nat} (hk : k < bs.length) : (m.writeList a bs).read (a + k) = bs[k] := by
  induction bs generalizing m a k with
  | nil => simp at hk
  | cons b bs ih =>
    simp only [List.length_cons] at ha hk
    rw [writeList]
    cases k with
    | zero => rw [Nat.add_zero, read_writeList_outside _ _ (by omega)]; exact read_write_same a b h
    | succ k =>
      rw [show a + (k + 1) = a + 1 + k by omega]
      exact ih (wf_write b h (by omega)) (by omega) (by omega)

end Sys2Proof.Machine.Memory
end

