-- ==== Sys2Proof/Laws/State.lean ====
section
/-! SUPPORT. One lemma a field for each named update of the state, so that no later proof unfolds a record update. -/

namespace Sys2Proof.Machine.State

section SetV

variable (s : State) (x : Nibble) (b : Byte)

@[simp] theorem setV_v : (s.setV x b).v = s.v.set x.toNat b x.isLt := rfl
@[simp] theorem setV_i : (s.setV x b).i = s.i := rfl
@[simp] theorem setV_pc : (s.setV x b).pc = s.pc := rfl
@[simp] theorem setV_stack : (s.setV x b).stack = s.stack := rfl
@[simp] theorem setV_sp : (s.setV x b).sp = s.sp := rfl
@[simp] theorem setV_dt : (s.setV x b).dt = s.dt := rfl
@[simp] theorem setV_st : (s.setV x b).st = s.st := rfl
@[simp] theorem setV_halt : (s.setV x b).halt = s.halt := rfl
@[simp] theorem setV_errCode : (s.setV x b).errCode = s.errCode := rfl
@[simp] theorem setV_phase : (s.setV x b).phase = s.phase := rfl
@[simp] theorem setV_errPc : (s.setV x b).errPc = s.errPc := rfl
@[simp] theorem setV_errOp : (s.setV x b).errOp = s.errOp := rfl
@[simp] theorem setV_armed : (s.setV x b).armed = s.armed := rfl
@[simp] theorem setV_execPend : (s.setV x b).execPend = s.execPend := rfl
@[simp] theorem setV_timerPend : (s.setV x b).timerPend = s.timerPend := rfl
@[simp] theorem setV_kx : (s.setV x b).kx = s.kx := rfl
@[simp] theorem setV_kk : (s.setV x b).kk = s.kk := rfl
@[simp] theorem setV_op : (s.setV x b).op = s.op := rfl
@[simp] theorem setV_pc0 : (s.setV x b).pc0 = s.pc0 := rfl
@[simp] theorem setV_mem : (s.setV x b).mem = s.mem := rfl
@[simp] theorem setV_keys : (s.setV x b).keys = s.keys := rfl
@[simp] theorem setV_cmdStatus : (s.setV x b).cmdStatus = s.cmdStatus := rfl
@[simp] theorem setV_display : (s.setV x b).display = s.display := rfl
@[simp] theorem setV_txns : (s.setV x b).txns = s.txns := rfl
@[simp] theorem setV_agenda : (s.setV x b).agenda = s.agenda := rfl
@[simp] theorem setV_draws : (s.setV x b).draws = s.draws := rfl
@[simp] theorem setV_stackAt (k : Fin 16) : (s.setV x b).stackAt k = s.stackAt k := rfl

end SetV

section StopScheduler

variable (s : State)

@[simp] theorem stopScheduler_v : (s.stopScheduler).v = s.v := rfl
@[simp] theorem stopScheduler_i : (s.stopScheduler).i = s.i := rfl
@[simp] theorem stopScheduler_pc : (s.stopScheduler).pc = s.pc := rfl
@[simp] theorem stopScheduler_stack : (s.stopScheduler).stack = s.stack := rfl
@[simp] theorem stopScheduler_sp : (s.stopScheduler).sp = s.sp := rfl
@[simp] theorem stopScheduler_dt : (s.stopScheduler).dt = s.dt := rfl
@[simp] theorem stopScheduler_st : (s.stopScheduler).st = s.st := rfl
@[simp] theorem stopScheduler_halt : (s.stopScheduler).halt = s.halt := rfl
@[simp] theorem stopScheduler_errCode : (s.stopScheduler).errCode = s.errCode := rfl
@[simp] theorem stopScheduler_phase : (s.stopScheduler).phase = s.phase := rfl
@[simp] theorem stopScheduler_errPc : (s.stopScheduler).errPc = s.errPc := rfl
@[simp] theorem stopScheduler_errOp : (s.stopScheduler).errOp = s.errOp := rfl
@[simp] theorem stopScheduler_armed : (s.stopScheduler).armed = false := rfl
@[simp] theorem stopScheduler_execPend : (s.stopScheduler).execPend = false := rfl
@[simp] theorem stopScheduler_timerPend : (s.stopScheduler).timerPend = false := rfl
@[simp] theorem stopScheduler_kx : (s.stopScheduler).kx = s.kx := rfl
@[simp] theorem stopScheduler_kk : (s.stopScheduler).kk = s.kk := rfl
@[simp] theorem stopScheduler_op : (s.stopScheduler).op = s.op := rfl
@[simp] theorem stopScheduler_pc0 : (s.stopScheduler).pc0 = s.pc0 := rfl
@[simp] theorem stopScheduler_mem : (s.stopScheduler).mem = s.mem := rfl
@[simp] theorem stopScheduler_keys : (s.stopScheduler).keys = s.keys := rfl
@[simp] theorem stopScheduler_cmdStatus : (s.stopScheduler).cmdStatus = s.cmdStatus := rfl
@[simp] theorem stopScheduler_display : (s.stopScheduler).display = s.display := rfl
@[simp] theorem stopScheduler_txns : (s.stopScheduler).txns = s.txns := rfl
@[simp] theorem stopScheduler_agenda : (s.stopScheduler).agenda = s.agenda := rfl
@[simp] theorem stopScheduler_draws : (s.stopScheduler).draws = s.draws := rfl
@[simp] theorem stopScheduler_getV (r : Nibble) : (s.stopScheduler).getV r = s.getV r := rfl
@[simp] theorem stopScheduler_stackAt (k : Fin 16) : (s.stopScheduler).stackAt k = s.stackAt k := rfl

end StopScheduler

section Raise

variable (s : State) (e : FatalError) (w : Word)

@[simp] theorem raise_v : (s.raise e w).v = s.v := rfl
@[simp] theorem raise_i : (s.raise e w).i = s.i := rfl
@[simp] theorem raise_pc : (s.raise e w).pc = s.pc := rfl
@[simp] theorem raise_stack : (s.raise e w).stack = s.stack := rfl
@[simp] theorem raise_sp : (s.raise e w).sp = s.sp := rfl
@[simp] theorem raise_dt : (s.raise e w).dt = s.dt := rfl
@[simp] theorem raise_st : (s.raise e w).st = s.st := rfl
@[simp] theorem raise_halt : (s.raise e w).halt = .haltErr := rfl
@[simp] theorem raise_errCode : (s.raise e w).errCode = some e := rfl
@[simp] theorem raise_phase : (s.raise e w).phase = .idle := rfl
@[simp] theorem raise_errPc : (s.raise e w).errPc = s.pc0 := rfl
@[simp] theorem raise_errOp : (s.raise e w).errOp = w := rfl
@[simp] theorem raise_armed : (s.raise e w).armed = false := rfl
@[simp] theorem raise_execPend : (s.raise e w).execPend = false := rfl
@[simp] theorem raise_timerPend : (s.raise e w).timerPend = false := rfl
@[simp] theorem raise_kx : (s.raise e w).kx = s.kx := rfl
@[simp] theorem raise_kk : (s.raise e w).kk = s.kk := rfl
@[simp] theorem raise_op : (s.raise e w).op = s.op := rfl
@[simp] theorem raise_pc0 : (s.raise e w).pc0 = s.pc0 := rfl
@[simp] theorem raise_mem : (s.raise e w).mem = s.mem := rfl
@[simp] theorem raise_keys : (s.raise e w).keys = s.keys := rfl
@[simp] theorem raise_cmdStatus : (s.raise e w).cmdStatus = s.cmdStatus := rfl
@[simp] theorem raise_display : (s.raise e w).display = s.display := rfl
@[simp] theorem raise_txns : (s.raise e w).txns = s.txns := rfl
@[simp] theorem raise_agenda : (s.raise e w).agenda = s.agenda := rfl
@[simp] theorem raise_draws : (s.raise e w).draws = s.draws := rfl
@[simp] theorem raise_getV (r : Nibble) : (s.raise e w).getV r = s.getV r := rfl
@[simp] theorem raise_stackAt (k : Fin 16) : (s.raise e w).stackAt k = s.stackAt k := rfl

end Raise

section ClearStatus

variable (s : State)

@[simp] theorem clearStatus_v : (s.clearStatus).v = s.v := rfl
@[simp] theorem clearStatus_i : (s.clearStatus).i = s.i := rfl
@[simp] theorem clearStatus_pc : (s.clearStatus).pc = s.pc := rfl
@[simp] theorem clearStatus_stack : (s.clearStatus).stack = s.stack := rfl
@[simp] theorem clearStatus_sp : (s.clearStatus).sp = s.sp := rfl
@[simp] theorem clearStatus_dt : (s.clearStatus).dt = s.dt := rfl
@[simp] theorem clearStatus_st : (s.clearStatus).st = s.st := rfl
@[simp] theorem clearStatus_halt : (s.clearStatus).halt = .run := rfl
@[simp] theorem clearStatus_errCode : (s.clearStatus).errCode = none := rfl
@[simp] theorem clearStatus_phase : (s.clearStatus).phase = .idle := rfl
@[simp] theorem clearStatus_errPc : (s.clearStatus).errPc = s.errPc := rfl
@[simp] theorem clearStatus_errOp : (s.clearStatus).errOp = s.errOp := rfl
@[simp] theorem clearStatus_armed : (s.clearStatus).armed = s.armed := rfl
@[simp] theorem clearStatus_execPend : (s.clearStatus).execPend = s.execPend := rfl
@[simp] theorem clearStatus_timerPend : (s.clearStatus).timerPend = s.timerPend := rfl
@[simp] theorem clearStatus_kx : (s.clearStatus).kx = s.kx := rfl
@[simp] theorem clearStatus_kk : (s.clearStatus).kk = s.kk := rfl
@[simp] theorem clearStatus_op : (s.clearStatus).op = s.op := rfl
@[simp] theorem clearStatus_pc0 : (s.clearStatus).pc0 = s.pc0 := rfl
@[simp] theorem clearStatus_mem : (s.clearStatus).mem = s.mem := rfl
@[simp] theorem clearStatus_keys : (s.clearStatus).keys = s.keys := rfl
@[simp] theorem clearStatus_cmdStatus : (s.clearStatus).cmdStatus = s.cmdStatus := rfl
@[simp] theorem clearStatus_display : (s.clearStatus).display = s.display := rfl
@[simp] theorem clearStatus_txns : (s.clearStatus).txns = s.txns := rfl
@[simp] theorem clearStatus_agenda : (s.clearStatus).agenda = s.agenda := rfl
@[simp] theorem clearStatus_draws : (s.clearStatus).draws = s.draws := rfl
@[simp] theorem clearStatus_getV (r : Nibble) : (s.clearStatus).getV r = s.getV r := rfl
@[simp] theorem clearStatus_stackAt (k : Fin 16) : (s.clearStatus).stackAt k = s.stackAt k := rfl

end ClearStatus

section HaltAtSelf

variable (s : State)

@[simp] theorem haltAtSelf_v : (s.haltAtSelf).v = s.v := rfl
@[simp] theorem haltAtSelf_i : (s.haltAtSelf).i = s.i := rfl
@[simp] theorem haltAtSelf_pc : (s.haltAtSelf).pc = s.pc := rfl
@[simp] theorem haltAtSelf_stack : (s.haltAtSelf).stack = s.stack := rfl
@[simp] theorem haltAtSelf_sp : (s.haltAtSelf).sp = s.sp := rfl
@[simp] theorem haltAtSelf_dt : (s.haltAtSelf).dt = s.dt := rfl
@[simp] theorem haltAtSelf_st : (s.haltAtSelf).st = s.st := rfl
@[simp] theorem haltAtSelf_halt : (s.haltAtSelf).halt = .haltSelf := rfl
@[simp] theorem haltAtSelf_errCode : (s.haltAtSelf).errCode = none := rfl
@[simp] theorem haltAtSelf_phase : (s.haltAtSelf).phase = s.phase := rfl
@[simp] theorem haltAtSelf_errPc : (s.haltAtSelf).errPc = s.errPc := rfl
@[simp] theorem haltAtSelf_errOp : (s.haltAtSelf).errOp = s.errOp := rfl
@[simp] theorem haltAtSelf_armed : (s.haltAtSelf).armed = false := rfl
@[simp] theorem haltAtSelf_execPend : (s.haltAtSelf).execPend = false := rfl
@[simp] theorem haltAtSelf_timerPend : (s.haltAtSelf).timerPend = false := rfl
@[simp] theorem haltAtSelf_kx : (s.haltAtSelf).kx = s.kx := rfl
@[simp] theorem haltAtSelf_kk : (s.haltAtSelf).kk = s.kk := rfl
@[simp] theorem haltAtSelf_op : (s.haltAtSelf).op = s.op := rfl
@[simp] theorem haltAtSelf_pc0 : (s.haltAtSelf).pc0 = s.pc0 := rfl
@[simp] theorem haltAtSelf_mem : (s.haltAtSelf).mem = s.mem := rfl
@[simp] theorem haltAtSelf_keys : (s.haltAtSelf).keys = s.keys := rfl
@[simp] theorem haltAtSelf_cmdStatus : (s.haltAtSelf).cmdStatus = s.cmdStatus := rfl
@[simp] theorem haltAtSelf_display : (s.haltAtSelf).display = s.display := rfl
@[simp] theorem haltAtSelf_txns : (s.haltAtSelf).txns = s.txns := rfl
@[simp] theorem haltAtSelf_agenda : (s.haltAtSelf).agenda = s.agenda := rfl
@[simp] theorem haltAtSelf_draws : (s.haltAtSelf).draws = s.draws := rfl
@[simp] theorem haltAtSelf_getV (r : Nibble) : (s.haltAtSelf).getV r = s.getV r := rfl
@[simp] theorem haltAtSelf_stackAt (k : Fin 16) : (s.haltAtSelf).stackAt k = s.stackAt k := rfl

end HaltAtSelf

section DisplayClear

variable (s : State)

@[simp] theorem displayClear_v : (s.displayClear).v = s.v := rfl
@[simp] theorem displayClear_i : (s.displayClear).i = s.i := rfl
@[simp] theorem displayClear_pc : (s.displayClear).pc = s.pc := rfl
@[simp] theorem displayClear_stack : (s.displayClear).stack = s.stack := rfl
@[simp] theorem displayClear_sp : (s.displayClear).sp = s.sp := rfl
@[simp] theorem displayClear_dt : (s.displayClear).dt = s.dt := rfl
@[simp] theorem displayClear_st : (s.displayClear).st = s.st := rfl
@[simp] theorem displayClear_halt : (s.displayClear).halt = s.halt := rfl
@[simp] theorem displayClear_errCode : (s.displayClear).errCode = s.errCode := rfl
@[simp] theorem displayClear_phase : (s.displayClear).phase = s.phase := rfl
@[simp] theorem displayClear_errPc : (s.displayClear).errPc = s.errPc := rfl
@[simp] theorem displayClear_errOp : (s.displayClear).errOp = s.errOp := rfl
@[simp] theorem displayClear_armed : (s.displayClear).armed = s.armed := rfl
@[simp] theorem displayClear_execPend : (s.displayClear).execPend = s.execPend := rfl
@[simp] theorem displayClear_timerPend : (s.displayClear).timerPend = s.timerPend := rfl
@[simp] theorem displayClear_kx : (s.displayClear).kx = s.kx := rfl
@[simp] theorem displayClear_kk : (s.displayClear).kk = s.kk := rfl
@[simp] theorem displayClear_op : (s.displayClear).op = s.op := rfl
@[simp] theorem displayClear_pc0 : (s.displayClear).pc0 = s.pc0 := rfl
@[simp] theorem displayClear_mem : (s.displayClear).mem = s.mem := rfl
@[simp] theorem displayClear_keys : (s.displayClear).keys = s.keys := rfl
@[simp] theorem displayClear_cmdStatus : (s.displayClear).cmdStatus = s.cmdStatus := rfl
@[simp] theorem displayClear_display : (s.displayClear).display = Display.cleared := rfl
@[simp] theorem displayClear_txns : (s.displayClear).txns = .clear :: s.txns := rfl
@[simp] theorem displayClear_agenda : (s.displayClear).agenda = s.agenda := rfl
@[simp] theorem displayClear_draws : (s.displayClear).draws = s.draws := rfl
@[simp] theorem displayClear_getV (r : Nibble) : (s.displayClear).getV r = s.getV r := rfl
@[simp] theorem displayClear_stackAt (k : Fin 16) : (s.displayClear).stackAt k = s.stackAt k := rfl

end DisplayClear

section TimerTick

variable (s : State)

@[simp] theorem timerTick_v : (s.timerTick).v = s.v := rfl
@[simp] theorem timerTick_i : (s.timerTick).i = s.i := rfl
@[simp] theorem timerTick_pc : (s.timerTick).pc = s.pc := rfl
@[simp] theorem timerTick_stack : (s.timerTick).stack = s.stack := rfl
@[simp] theorem timerTick_sp : (s.timerTick).sp = s.sp := rfl
@[simp] theorem timerTick_dt : (s.timerTick).dt = if s.dt = 0 then 0 else s.dt - 1 := rfl
@[simp] theorem timerTick_st : (s.timerTick).st = if s.st = 0 then 0 else s.st - 1 := rfl
@[simp] theorem timerTick_halt : (s.timerTick).halt = s.halt := rfl
@[simp] theorem timerTick_errCode : (s.timerTick).errCode = s.errCode := rfl
@[simp] theorem timerTick_phase : (s.timerTick).phase = s.phase := rfl
@[simp] theorem timerTick_errPc : (s.timerTick).errPc = s.errPc := rfl
@[simp] theorem timerTick_errOp : (s.timerTick).errOp = s.errOp := rfl
@[simp] theorem timerTick_armed : (s.timerTick).armed = s.armed := rfl
@[simp] theorem timerTick_execPend : (s.timerTick).execPend = s.execPend := rfl
@[simp] theorem timerTick_timerPend : (s.timerTick).timerPend = s.timerPend := rfl
@[simp] theorem timerTick_kx : (s.timerTick).kx = s.kx := rfl
@[simp] theorem timerTick_kk : (s.timerTick).kk = s.kk := rfl
@[simp] theorem timerTick_op : (s.timerTick).op = s.op := rfl
@[simp] theorem timerTick_pc0 : (s.timerTick).pc0 = s.pc0 := rfl
@[simp] theorem timerTick_mem : (s.timerTick).mem = s.mem := rfl
@[simp] theorem timerTick_keys : (s.timerTick).keys = s.keys := rfl
@[simp] theorem timerTick_cmdStatus : (s.timerTick).cmdStatus = s.cmdStatus := rfl
@[simp] theorem timerTick_display : (s.timerTick).display = s.display := rfl
@[simp] theorem timerTick_txns : (s.timerTick).txns = s.txns := rfl
@[simp] theorem timerTick_agenda : (s.timerTick).agenda = s.agenda := rfl
@[simp] theorem timerTick_draws : (s.timerTick).draws = s.draws := rfl
@[simp] theorem timerTick_getV (r : Nibble) : (s.timerTick).getV r = s.getV r := rfl
@[simp] theorem timerTick_stackAt (k : Fin 16) : (s.timerTick).stackAt k = s.stackAt k := rfl

end TimerTick

section Fetched

variable (s : State) (w : Word)

@[simp] theorem fetched_v : (s.fetched w).v = s.v := rfl
@[simp] theorem fetched_i : (s.fetched w).i = s.i := rfl
@[simp] theorem fetched_pc : (s.fetched w).pc = s.pc + 2 := rfl
@[simp] theorem fetched_stack : (s.fetched w).stack = s.stack := rfl
@[simp] theorem fetched_sp : (s.fetched w).sp = s.sp := rfl
@[simp] theorem fetched_dt : (s.fetched w).dt = s.dt := rfl
@[simp] theorem fetched_st : (s.fetched w).st = s.st := rfl
@[simp] theorem fetched_halt : (s.fetched w).halt = s.halt := rfl
@[simp] theorem fetched_errCode : (s.fetched w).errCode = s.errCode := rfl
@[simp] theorem fetched_phase : (s.fetched w).phase = s.phase := rfl
@[simp] theorem fetched_errPc : (s.fetched w).errPc = s.errPc := rfl
@[simp] theorem fetched_errOp : (s.fetched w).errOp = s.errOp := rfl
@[simp] theorem fetched_armed : (s.fetched w).armed = s.armed := rfl
@[simp] theorem fetched_execPend : (s.fetched w).execPend = s.execPend := rfl
@[simp] theorem fetched_timerPend : (s.fetched w).timerPend = s.timerPend := rfl
@[simp] theorem fetched_kx : (s.fetched w).kx = s.kx := rfl
@[simp] theorem fetched_kk : (s.fetched w).kk = s.kk := rfl
@[simp] theorem fetched_op : (s.fetched w).op = w := rfl
@[simp] theorem fetched_pc0 : (s.fetched w).pc0 = s.pc := rfl
@[simp] theorem fetched_mem : (s.fetched w).mem = s.mem := rfl
@[simp] theorem fetched_keys : (s.fetched w).keys = s.keys := rfl
@[simp] theorem fetched_cmdStatus : (s.fetched w).cmdStatus = s.cmdStatus := rfl
@[simp] theorem fetched_display : (s.fetched w).display = s.display := rfl
@[simp] theorem fetched_txns : (s.fetched w).txns = s.txns := rfl
@[simp] theorem fetched_agenda : (s.fetched w).agenda = s.agenda := rfl
@[simp] theorem fetched_draws : (s.fetched w).draws = s.draws := rfl
@[simp] theorem fetched_getV (r : Nibble) : (s.fetched w).getV r = s.getV r := rfl
@[simp] theorem fetched_stackAt (k : Fin 16) : (s.fetched w).stackAt k = s.stackAt k := rfl

end Fetched

end Sys2Proof.Machine.State
end

