-- ==== Sys2Proof/Laws/Ops.lean ====
section
/-! SUPPORT. What each shared operation can do, said once. -/

namespace Sys2Proof.Machine.State

section Registers

variable (s : State) (x r : Nibble) (b : Byte)

@[simp] theorem getV_setV_same : (s.setV x b).getV x = b := by
  simp [getV, setV]

theorem getV_setV_ne (h : r ≠ x) : (s.setV x b).getV r = s.getV r := by
  have hn : x.toNat ≠ r.toNat := fun he => h (BitVec.eq_of_toNat_eq he.symm)
  simp [getV, setV, Vector.getElem_set_ne _ _ hn]

theorem getV_setV : (s.setV x b).getV r = if r = x then b else s.getV r := by
  split
  next h => rw [h, getV_setV_same]
  next h => rw [getV_setV_ne s x r b h]

/-- A register write changes the register file only. -/
theorem setV_eq : s.setV x b = { s with v := (s.setV x b).v } := rfl

/-- Flag and result: the result is in `Vx`; the flag is in `VF` unless `x = F`; no other register changes (R171). -/
theorem getV_setFlagThenResult (f : Bool) :
    (s.setFlagThenResult x f b).getV r = if r = x then b else if r = vF then flagByte f else s.getV r := by
  rw [setFlagThenResult, getV_setV, getV_setV]

theorem setFlagThenResult_eq (f : Bool) :
    s.setFlagThenResult x f b = { s with v := (s.setFlagThenResult x f b).v } := rfl

/-- The register file is what its sixteen registers hold. -/
theorem v_ext {v w : Vector Byte 16} (h : ∀ r : Nibble, v[r.toNat]'r.isLt = w[r.toNat]'r.isLt) : v = w := by
  apply Vector.ext
  intro k hk
  have := h (BitVec.ofNat 4 k)
  simp only [BitVec.toNat_ofNat, Nat.mod_eq_of_lt (show k < 2 ^ 4 from hk)] at this
  exact this

end Registers

section MemoryAccess

variable (s : State)

theorem memRead_of_lt {a : Word} (h : a.toNat < Config.memSize) : s.memRead a = some (s.mem.read a.toNat) := if_pos h

theorem memRead_of_ge {a : Word} (h : Config.memSize ≤ a.toNat) : s.memRead a = none := if_neg (by omega)

theorem toNat_add_one {a : Word} (h : a.toNat < Config.memSize) : (a + 1).toNat = a.toNat + 1 := by
  have : Config.memSize = 4096 := rfl
  rw [BitVec.toNat_add]; simp; omega

/-- All the bytes are in range: they are read in ascending order. -/
theorem memReadList_of_le {a : Word} {n : Nat} (h : a.toNat + n ≤ Config.memSize) :
    ∃ rows, s.memReadList a n = some rows ∧ rows.length = n ∧
      ∀ k, (hk : k < rows.length) → rows[k] = s.mem.read (a.toNat + k) := by
  induction n generalizing a with
  | zero => exact ⟨[], rfl, rfl, fun k hk => absurd hk (by simp)⟩
  | succ n ih =>
    have hlt : a.toNat < Config.memSize := by omega
    obtain ⟨rows, h1, h2, h3⟩ := ih (a := a + 1) (by rw [toNat_add_one hlt]; omega)
    refine ⟨s.mem.read a.toNat :: rows, ?_, by simp [h2], ?_⟩
    · simp only [memReadList, memRead_of_lt s hlt, h1, Option.map_some]
    · intro k hk
      cases k with
      | zero => rfl
      | succ k =>
        simp only [List.length_cons] at hk
        rw [List.getElem_cons_succ, h3 k (by omega), toNat_add_one hlt]
        congr 1; omega

/-- One of the bytes is out of range: the read raises. -/
theorem memReadList_of_gt {a : Word} {n : Nat} (hn : 0 < n) (h : Config.memSize < a.toNat + n) :
    s.memReadList a n = none := by
  induction n generalizing a with
  | zero => omega
  | succ n ih =>
    by_cases hlt : a.toNat < Config.memSize
    · have := ih (a := a + 1) (by omega) (by rw [toNat_add_one hlt]; omega)
      simp only [memReadList, memRead_of_lt s hlt, this, Option.map_none]
    · simp only [memReadList, memRead_of_ge s (Nat.le_of_not_lt hlt)]

/-- All the bytes are in range: the block is written, nothing else changes. -/
theorem memWriteList_of_le {a : Word} {bs : List Byte} (h : a.toNat + bs.length ≤ Config.memSize) :
    s.memWriteList a bs = .ok { s with mem := s.mem.writeList a.toNat bs } := by
  induction bs generalizing a s with
  | nil => rfl
  | cons b bs ih =>
    simp only [List.length_cons] at h
    have hlt : a.toNat < Config.memSize := by omega
    simp only [memWriteList, memWrite, if_pos hlt]
    rw [ih _ (by rw [toNat_add_one hlt]; omega), toNat_add_one hlt]
    rfl

/-- One of the bytes is out of range: those before it are written, nothing else changes (R86). -/
theorem memWriteList_of_gt {a : Word} {bs : List Byte} (hb : bs ≠ []) (h : Config.memSize < a.toNat + bs.length) :
    s.memWriteList a bs = .error { s with mem := s.mem.writeList a.toNat (bs.take (Config.memSize - a.toNat)) } := by
  induction bs generalizing a s with
  | nil => exact absurd rfl hb
  | cons b bs ih =>
    simp only [List.length_cons] at h
    by_cases hlt : a.toNat < Config.memSize
    · have hne : bs ≠ [] := by
        rintro rfl
        simp only [List.length_nil] at h
        omega
      simp only [memWriteList, memWrite, if_pos hlt]
      rw [ih _ hne (by rw [toNat_add_one hlt]; omega), toNat_add_one hlt]
      obtain ⟨k, hk⟩ : ∃ k, Config.memSize - a.toNat = k + 1 := ⟨Config.memSize - a.toNat - 1, by omega⟩
      rw [hk, List.take_succ_cons, show Config.memSize - (a.toNat + 1) = k by omega]
      rfl
    · simp only [memWriteList, memWrite, if_neg hlt]
      rw [show Config.memSize - a.toNat = 0 by omega]
      rfl

/-- Whichever way a block write ends, only memory has changed. -/
theorem memWriteList_frame (a : Word) (bs : List Byte) :
    ∃ m, s.memWriteList a bs = .ok { s with mem := m } ∨ s.memWriteList a bs = .error { s with mem := m } := by
  induction bs generalizing a s with
  | nil => exact ⟨s.mem, .inl rfl⟩
  | cons b bs ih =>
    by_cases hlt : a.toNat < Config.memSize
    · simpa only [memWriteList, memWrite, if_pos hlt] using ih { s with mem := s.mem.write a.toNat b } (a + 1)
    · exact ⟨s.mem, .inr (by simp only [memWriteList, memWrite, if_neg hlt])⟩

/-- Whichever way a block write ends, memory keeps its canonical form. -/
theorem memWriteList_wf (a : Word) (bs : List Byte) (h : s.mem.wf = true) :
    ∃ m, m.wf = true ∧
      (s.memWriteList a bs = .ok { s with mem := m } ∨ s.memWriteList a bs = .error { s with mem := m }) := by
  induction bs generalizing a s with
  | nil => exact ⟨s.mem, h, .inl rfl⟩
  | cons b bs ih =>
    by_cases hlt : a.toNat < Config.memSize
    · simpa only [memWriteList, memWrite, if_pos hlt] using
        ih { s with mem := s.mem.write a.toNat b } (a + 1) (Memory.wf_write b h hlt)
    · exact ⟨s.mem, h, .inr (by simp only [memWriteList, memWrite, if_neg hlt])⟩

/-- The writes done before a raise keep the canonical form too (R86). -/
theorem memWriteList_error_wf {a : Word} {bs : List Byte} {t : State} (h : s.memWriteList a bs = .error t)
    (hw : s.mem.wf = true) : t.mem.wf = true := by
  obtain ⟨m, hm, he | he⟩ := s.memWriteList_wf a bs hw <;> rw [he] at h <;> cases h
  exact hm

end MemoryAccess

section BlockLoad

theorem toNat_add_ofNat {a : Word} {k : Nat} (h : a.toNat + k < 65536) : (a + BitVec.ofNat 16 k).toNat = a.toNat + k := by
  rw [BitVec.toNat_add, BitVec.toNat_ofNat]; omega

theorem toNat_ofNat_nibble {k : Nat} (h : k < 16) : (BitVec.ofNat 4 k).toNat = k := by
  rw [BitVec.toNat_ofNat]; omega

/-- Whichever way a block load ends, only registers have changed. -/
theorem loadRegsFrom_frame (s : State) (i0 : Word) (k n : Nat) :
    ∃ v, s.loadRegsFrom i0 k n = .ok { s with v := v } ∨ s.loadRegsFrom i0 k n = .error { s with v := v } := by
  induction n generalizing s k with
  | zero => exact ⟨s.v, .inl rfl⟩
  | succ n ih =>
    rw [loadRegsFrom]
    split
    · exact ⟨s.v, .inr rfl⟩
    next b _ => exact ih (s.setV (BitVec.ofNat 4 k) b) (k + 1)

/-- All the bytes are in range: registers `k` to `k + n - 1` are loaded, the others keep their values. -/
theorem loadRegsFrom_of_le {s : State} {i0 : Word} {k n : Nat} (hk : k + n ≤ 16)
    (h : i0.toNat + (k + n) ≤ Config.memSize) :
    ∃ t, s.loadRegsFrom i0 k n = .ok t ∧ t = { s with v := t.v } ∧
      ∀ r : Nibble, t.getV r =
        if k ≤ r.toNat ∧ r.toNat < k + n then s.mem.read (i0.toNat + r.toNat) else s.getV r := by
  have hm : Config.memSize = 4096 := rfl
  induction n generalizing s k with
  | zero => exact ⟨s, rfl, rfl, fun r => by rw [if_neg (by omega)]⟩
  | succ n ih =>
    have ha : (i0 + BitVec.ofNat 16 k).toNat = i0.toNat + k := toNat_add_ofNat (by omega)
    rw [loadRegsFrom, memRead_of_lt s (by omega), ha]
    obtain ⟨t, h1, h2, h3⟩ := ih (s := s.setV (BitVec.ofNat 4 k) (s.mem.read (i0.toNat + k))) (k := k + 1) (by omega) (by omega)
    refine ⟨t, h1, h2, fun r => ?_⟩
    rw [h3 r, getV_setV]
    have hr : r = BitVec.ofNat 4 k ↔ r.toNat = k := by
      rw [← BitVec.toNat_inj, toNat_ofNat_nibble (by omega)]
    by_cases he : r.toNat = k
    · rw [if_neg (by omega), if_pos (hr.mpr he), if_pos (by omega), he]
    · rw [if_neg (mt hr.mp he)]
      by_cases hc : k + 1 ≤ r.toNat ∧ r.toNat < k + 1 + n
      · rw [if_pos hc, if_pos (by omega)]; rfl
      · rw [if_neg hc, if_neg (by omega)]

/-- One of the bytes is out of range: the registers before it are loaded, the others keep their values (R86, R195). -/
theorem loadRegsFrom_of_gt {s : State} {i0 : Word} {k n : Nat} (hk : k + n ≤ 16) (hn : 0 < n)
    (h : Config.memSize < i0.toNat + (k + n)) (hw : i0.toNat + (k + n) ≤ 65536 ∨ k = 0) :
    ∃ t, s.loadRegsFrom i0 k n = .error t ∧ t = { s with v := t.v } ∧
      ∀ r : Nibble, t.getV r =
        if k ≤ r.toNat ∧ r.toNat < k + n ∧ i0.toNat + r.toNat < Config.memSize then s.mem.read (i0.toNat + r.toNat)
        else s.getV r := by
  have hm : Config.memSize = 4096 := rfl
  have hi := i0.isLt
  induction n generalizing s k with
  | zero => omega
  | succ n ih =>
    have ha : (i0 + BitVec.ofNat 16 k).toNat = i0.toNat + k := toNat_add_ofNat (by omega)
    rw [loadRegsFrom]
    by_cases hlt : i0.toNat + k < Config.memSize
    · rw [memRead_of_lt s (by omega), ha]
      obtain ⟨t, h1, h2, h3⟩ := ih (s := s.setV (BitVec.ofNat 4 k) (s.mem.read (i0.toNat + k))) (k := k + 1)
        (by omega) (by omega) (by omega) (by omega)
      refine ⟨t, h1, h2, fun r => ?_⟩
      rw [h3 r, getV_setV]
      have hr : r = BitVec.ofNat 4 k ↔ r.toNat = k := by
        rw [← BitVec.toNat_inj, toNat_ofNat_nibble (by omega)]
      by_cases he : r.toNat = k
      · rw [if_neg (by omega), if_pos (hr.mpr he), if_pos (by omega), he]
      · rw [if_neg (mt hr.mp he)]
        by_cases hc : k + 1 ≤ r.toNat ∧ r.toNat < k + 1 + n ∧ i0.toNat + r.toNat < Config.memSize
        · rw [if_pos hc, if_pos (by omega)]; rfl
        · rw [if_neg hc, if_neg (by omega)]
    · rw [memRead_of_ge s (by omega)]
      exact ⟨s, rfl, rfl, fun r => by rw [if_neg (by omega)]⟩

end BlockLoad

section CallStack

variable (s : State)

theorem push_of_lt (w : Word) (h : s.sp.val < 16) :
    s.push w = some { s with stack := s.stack.set s.sp.val w h, sp := ⟨s.sp.val + 1, by omega⟩ } := dif_pos h

theorem push_of_full (w : Word) (h : s.sp.val = 16) : s.push w = none := dif_neg (by omega)

theorem pop_of_pos (h : 0 < s.sp.val) :
    s.pop = some (s.stackAt ⟨s.sp.val - 1, by omega⟩, { s with sp := ⟨s.sp.val - 1, by omega⟩ }) := dif_pos h

theorem pop_of_empty (h : s.sp.val = 0) : s.pop = none := dif_neg (by omega)

end CallStack

section Fetch

variable (s : State)

/-- Two bytes fit: the fetch reads them. -/
theorem fetchOpcode_of_le (h : s.pc.toNat ≤ Config.lastEntry) :
    s.fetchOpcode = some (opcodeOfBytes (s.mem.read s.pc.toNat) (s.mem.read (s.pc.toNat + 1))) := by
  have h1 : Config.lastEntry = 4094 := rfl
  have h2 : Config.memSize = 4096 := rfl
  have h3 : (s.pc + 1).toNat = s.pc.toNat + 1 := toNat_add_one (by omega)
  rw [fetchOpcode, memRead_of_lt s (by omega), memRead_of_lt s (by omega), h3]

/-- Two bytes do not fit: the fetch raises. -/
theorem fetchOpcode_of_gt (h : Config.lastEntry < s.pc.toNat) : s.fetchOpcode = none := by
  have h1 : Config.lastEntry = 4094 := rfl
  have h2 : Config.memSize = 4096 := rfl
  by_cases hlt : s.pc.toNat < Config.memSize
  · have h3 : (s.pc + 1).toNat = s.pc.toNat + 1 := toNat_add_one hlt
    rw [fetchOpcode, memRead_of_ge s (a := s.pc + 1) (by omega)]
    split
    next hc => cases hc
    next => rfl
  · rw [fetchOpcode, memRead_of_ge s (by omega)]

end Fetch

/-- The halt check either halts the machine at itself or leaves it alone (R138, R139). -/
theorem retire_cases (s : State) :
    (s.halt = .run ∧ s.phase = .idle ∧ s.pc = s.pc0 ∧ s.retire = s.haltAtSelf) ∨
    (¬ (s.halt = .run ∧ s.phase = .idle ∧ s.pc = s.pc0) ∧ s.retire = s) := by
  unfold retire
  split
  next h => exact .inl ⟨h.1, h.2.1, h.2.2, rfl⟩
  next h => exact .inr ⟨h, rfl⟩

end Sys2Proof.Machine.State
end

