-- ==== Sys2Proof/Laws/PerInstr.lean ====
section
/-! SUPPORT. The per-instruction family `EncodedWord`: the encoder's word of an instruction selects the instruction's own row of the
opcode map (R110). -/

namespace Sys2Proof.Laws.EncodedWord

/-- The encoded word selects the instruction's row, and the row stands in the map. -/
def Statement (i : Instr) : Prop := (opcodeRow i).selects (encode i) = true ∧ opcodeRow i ∈ opcodeMap

section Formats

variable (n1 x y n : Nibble) (nn : Byte) (nnn : Addr)

theorem selects_NNN : OpcodeRow.selects ⟨0xF000, encodeNNN n1 0⟩ (encodeNNN n1 nnn) = true := by
  simp only [OpcodeRow.selects, encodeNNN, beq_iff_eq, BitVec.and_or_distrib_right]
  congr 1
  · revert n1; decide
  · ext i hi; interval_cases i <;> simp
theorem selects_XNN : OpcodeRow.selects ⟨0xF000, encodeXNN n1 0 0⟩ (encodeXNN n1 x nn) = true := by
  simp only [OpcodeRow.selects, encodeXNN, beq_iff_eq, BitVec.and_or_distrib_right]
  congr 1
  · congr 1
    · revert n1; decide
    · revert x; decide
  · ext i hi; interval_cases i <;> simp
theorem selects_X : OpcodeRow.selects ⟨0xF0FF, encodeXNN n1 0 nn⟩ (encodeXNN n1 x nn) = true := by
  simp only [OpcodeRow.selects, encodeXNN, beq_iff_eq, BitVec.and_or_distrib_right]
  congr 1
  · congr 1
    · revert n1; decide
    · revert x; decide
  · ext i hi; interval_cases i <;> simp
theorem selects_XY : OpcodeRow.selects ⟨0xF00F, encodeXYN n1 0 0 n⟩ (encodeXYN n1 x y n) = true := by
  simp only [OpcodeRow.selects, encodeXYN, beq_iff_eq, BitVec.and_or_distrib_right]
  congr 1
  · congr 1
    · congr 1
      · revert n1; decide
      · revert x; decide
    · revert y; decide
  · revert n; decide
theorem selects_XYN : OpcodeRow.selects ⟨0xF000, encodeXYN n1 0 0 0⟩ (encodeXYN n1 x y n) = true := by
  simp only [OpcodeRow.selects, encodeXYN, beq_iff_eq, BitVec.and_or_distrib_right]
  congr 1
  · congr 1
    · congr 1
      · revert n1; decide
      · revert x; decide
    · revert y; decide
  · revert n; decide

end Formats

theorem cls : Statement .cls := ⟨by decide, by decide⟩
theorem ret : Statement .ret := ⟨by decide, by decide⟩
theorem jp (nnn : Addr) : Statement (.jp nnn) :=
  ⟨selects_NNN _ _, show (⟨0xF000, 0x1000⟩ : OpcodeRow) ∈ opcodeMap by decide⟩
theorem call (nnn : Addr) : Statement (.call nnn) :=
  ⟨selects_NNN _ _, show (⟨0xF000, 0x2000⟩ : OpcodeRow) ∈ opcodeMap by decide⟩
theorem seImm (x : Nibble) (nn : Byte) : Statement (.seImm x nn) :=
  ⟨selects_XNN _ _ _, show (⟨0xF000, 0x3000⟩ : OpcodeRow) ∈ opcodeMap by decide⟩
theorem sneImm (x : Nibble) (nn : Byte) : Statement (.sneImm x nn) :=
  ⟨selects_XNN _ _ _, show (⟨0xF000, 0x4000⟩ : OpcodeRow) ∈ opcodeMap by decide⟩
theorem seReg (x y : Nibble) : Statement (.seReg x y) :=
  ⟨selects_XY _ _ _ _, show (⟨0xF00F, 0x5000⟩ : OpcodeRow) ∈ opcodeMap by decide⟩
theorem ldImm (x : Nibble) (nn : Byte) : Statement (.ldImm x nn) :=
  ⟨selects_XNN _ _ _, show (⟨0xF000, 0x6000⟩ : OpcodeRow) ∈ opcodeMap by decide⟩
theorem addImm (x : Nibble) (nn : Byte) : Statement (.addImm x nn) :=
  ⟨selects_XNN _ _ _, show (⟨0xF000, 0x7000⟩ : OpcodeRow) ∈ opcodeMap by decide⟩
theorem ldReg (x y : Nibble) : Statement (.ldReg x y) :=
  ⟨selects_XY _ _ _ _, show (⟨0xF00F, 0x8000⟩ : OpcodeRow) ∈ opcodeMap by decide⟩
theorem orReg (x y : Nibble) : Statement (.orReg x y) :=
  ⟨selects_XY _ _ _ _, show (⟨0xF00F, 0x8001⟩ : OpcodeRow) ∈ opcodeMap by decide⟩
theorem andReg (x y : Nibble) : Statement (.andReg x y) :=
  ⟨selects_XY _ _ _ _, show (⟨0xF00F, 0x8002⟩ : OpcodeRow) ∈ opcodeMap by decide⟩
theorem xorReg (x y : Nibble) : Statement (.xorReg x y) :=
  ⟨selects_XY _ _ _ _, show (⟨0xF00F, 0x8003⟩ : OpcodeRow) ∈ opcodeMap by decide⟩
theorem addReg (x y : Nibble) : Statement (.addReg x y) :=
  ⟨selects_XY _ _ _ _, show (⟨0xF00F, 0x8004⟩ : OpcodeRow) ∈ opcodeMap by decide⟩
theorem sub (x y : Nibble) : Statement (.sub x y) :=
  ⟨selects_XY _ _ _ _, show (⟨0xF00F, 0x8005⟩ : OpcodeRow) ∈ opcodeMap by decide⟩
theorem shr (x y : Nibble) : Statement (.shr x y) :=
  ⟨selects_XY _ _ _ _, show (⟨0xF00F, 0x8006⟩ : OpcodeRow) ∈ opcodeMap by decide⟩
theorem subn (x y : Nibble) : Statement (.subn x y) :=
  ⟨selects_XY _ _ _ _, show (⟨0xF00F, 0x8007⟩ : OpcodeRow) ∈ opcodeMap by decide⟩
theorem shl (x y : Nibble) : Statement (.shl x y) :=
  ⟨selects_XY _ _ _ _, show (⟨0xF00F, 0x800E⟩ : OpcodeRow) ∈ opcodeMap by decide⟩
theorem sneReg (x y : Nibble) : Statement (.sneReg x y) :=
  ⟨selects_XY _ _ _ _, show (⟨0xF00F, 0x9000⟩ : OpcodeRow) ∈ opcodeMap by decide⟩
theorem ldI (nnn : Addr) : Statement (.ldI nnn) :=
  ⟨selects_NNN _ _, show (⟨0xF000, 0xA000⟩ : OpcodeRow) ∈ opcodeMap by decide⟩
theorem jpV0 (nnn : Addr) : Statement (.jpV0 nnn) :=
  ⟨selects_NNN _ _, show (⟨0xF000, 0xB000⟩ : OpcodeRow) ∈ opcodeMap by decide⟩
theorem rnd (x : Nibble) (nn : Byte) : Statement (.rnd x nn) :=
  ⟨selects_XNN _ _ _, show (⟨0xF000, 0xC000⟩ : OpcodeRow) ∈ opcodeMap by decide⟩
theorem drw (x y n : Nibble) : Statement (.drw x y n) :=
  ⟨selects_XYN _ _ _ _, show (⟨0xF000, 0xD000⟩ : OpcodeRow) ∈ opcodeMap by decide⟩
theorem skp (x : Nibble) : Statement (.skp x) :=
  ⟨selects_X _ _ _, show (⟨0xF0FF, 0xE09E⟩ : OpcodeRow) ∈ opcodeMap by decide⟩
theorem sknp (x : Nibble) : Statement (.sknp x) :=
  ⟨selects_X _ _ _, show (⟨0xF0FF, 0xE0A1⟩ : OpcodeRow) ∈ opcodeMap by decide⟩
theorem ldVxDt (x : Nibble) : Statement (.ldVxDt x) :=
  ⟨selects_X _ _ _, show (⟨0xF0FF, 0xF007⟩ : OpcodeRow) ∈ opcodeMap by decide⟩
theorem ldVxK (x : Nibble) : Statement (.ldVxK x) :=
  ⟨selects_X _ _ _, show (⟨0xF0FF, 0xF00A⟩ : OpcodeRow) ∈ opcodeMap by decide⟩
theorem ldDtVx (x : Nibble) : Statement (.ldDtVx x) :=
  ⟨selects_X _ _ _, show (⟨0xF0FF, 0xF015⟩ : OpcodeRow) ∈ opcodeMap by decide⟩
theorem ldStVx (x : Nibble) : Statement (.ldStVx x) :=
  ⟨selects_X _ _ _, show (⟨0xF0FF, 0xF018⟩ : OpcodeRow) ∈ opcodeMap by decide⟩
theorem addI (x : Nibble) : Statement (.addI x) :=
  ⟨selects_X _ _ _, show (⟨0xF0FF, 0xF01E⟩ : OpcodeRow) ∈ opcodeMap by decide⟩
theorem ldF (x : Nibble) : Statement (.ldF x) :=
  ⟨selects_X _ _ _, show (⟨0xF0FF, 0xF029⟩ : OpcodeRow) ∈ opcodeMap by decide⟩
theorem ldB (x : Nibble) : Statement (.ldB x) :=
  ⟨selects_X _ _ _, show (⟨0xF0FF, 0xF033⟩ : OpcodeRow) ∈ opcodeMap by decide⟩
theorem storeRegs (x : Nibble) : Statement (.storeRegs x) :=
  ⟨selects_X _ _ _, show (⟨0xF0FF, 0xF055⟩ : OpcodeRow) ∈ opcodeMap by decide⟩
theorem loadRegs (x : Nibble) : Statement (.loadRegs x) :=
  ⟨selects_X _ _ _, show (⟨0xF0FF, 0xF065⟩ : OpcodeRow) ∈ opcodeMap by decide⟩

end Sys2Proof.Laws.EncodedWord
end

