-- ==== Sys2Proof/Laws/Step.lean ====
section
/-! SUPPORT. What one step does, event by event, and what every instruction leaves alone. -/

namespace Sys2Proof.Machine

/-- A settled event: it is taken off the agenda and performed. -/
theorem step_of_agenda {s : State} {e : Event} {rest : List Event} (h : s.agenda = e :: rest) :
    step s = State.perform { s with agenda := rest } e := by
  simp only [step, State.nextEvent]
  rw [h]

/-- Past the agenda's end the event is free. -/
theorem step_of_free {s : State} (h : s.agenda = []) :
    step s = State.perform { s with draws := s.draws + 1 } (Config.freeEvent s.draws) := by
  simp only [step, State.nextEvent]
  rw [h]

namespace State

/-- A timer tick is due: it comes first (R235). -/
theorem deliver_of_timer {s : State} (h : s.timerPend = true) :
    s.deliver = .next (timerTick { s with timerPend := false }) := by
  rw [deliver, if_pos h]

/-- An execution tick is due (R232). -/
theorem deliver_of_exec {s : State} (ht : s.timerPend = false) (he : s.execPend = true) (hp : s.phase = .idle)
    (hh : s.halt = .run) : s.deliver = executionStep { s with execPend := false } := by
  have hd : s.execDue = true := by simp [execDue, he, hp, hh]
  rw [deliver, if_neg (by simp [ht]), if_pos hd]

/-- Nothing is due: the delivery does nothing. -/
theorem deliver_of_none {s : State} (ht : s.timerPend = false) (hd : s.execDue = false) : s.deliver = .next s := by
  rw [deliver, if_neg (by simp [ht]), if_neg (by simp [hd])]

/-- The fetch raises (R131). -/
theorem executionStep_of_fault {s : State} (h : s.fetchOpcode = none) : s.executionStep = .next s.fetchFault := by
  rw [executionStep, h]

/-- The opcode is illegal (R132). -/
theorem executionStep_of_illegal {s : State} {op : Word} (h : s.fetchOpcode = some op) (hd : decode op = none) :
    s.executionStep = .next (s.illegalFault op) := by
  simp only [executionStep, h, hd]

/-- The opcode is an instruction whose meaning answers a next state (R130). -/
theorem executionStep_of_next {s t : State} {op : Word} {i : Instr} (h : s.fetchOpcode = some op) (hd : decode op = some i)
    (he : exec i (s.fetched op) = .next t) : s.executionStep = .next t.retire := by
  simp only [executionStep, h, hd, he]

end State

/-- `CALL` has pushed, or raised because the stack is full (R151). -/
theorem exec_call_cases {nnn : Addr} {s t : State} (h : exec (.call nnn) s = .next t) :
    (∃ hs : s.sp.val < 16,
      t = { s with stack := s.stack.set s.sp.val s.pc hs, sp := ⟨s.sp.val + 1, by omega⟩, pc := addrOf nnn }) ∨
    (s.sp.val = 16 ∧ t = s.raise .stackOverflow s.op) := by
  by_cases hs : s.sp.val < 16
  · simp only [exec, execCall, State.push_of_lt s _ hs] at h
    cases h; exact .inl ⟨hs, rfl⟩
  · have hf : s.sp.val = 16 := by omega
    simp only [exec, execCall, State.push_of_full s s.pc hf] at h
    cases h; exact .inr ⟨hf, rfl⟩

/-- `RET` has popped, or raised because the stack is empty (R152). -/
theorem exec_ret_cases {s t : State} (h : exec .ret s = .next t) :
    (0 < s.sp.val ∧ t = { s with pc := s.stackAt ⟨s.sp.val - 1, by omega⟩, sp := ⟨s.sp.val - 1, by omega⟩ }) ∨
    (s.sp.val = 0 ∧ t = s.raise .stackUnderflow s.op) := by
  by_cases hs : 0 < s.sp.val
  · simp only [exec, execRet, State.pop_of_pos s hs] at h
    cases h; exact .inl ⟨hs, rfl⟩
  · have hf : s.sp.val = 0 := by omega
    simp only [exec, execRet, State.pop_of_empty s hf] at h
    cases h; exact .inr ⟨hf, rfl⟩

/-- `JP V0` has jumped, or raised because the target is out of range (R153). -/
theorem exec_jpV0_cases {nnn : Addr} {s t : State} (h : exec (.jpV0 nnn) s = .next t) :
    ((indexedTarget nnn (s.getV 0)).toNat < Config.memSize ∧ t = { s with pc := indexedTarget nnn (s.getV 0) }) ∨
    (Config.memSize ≤ (indexedTarget nnn (s.getV 0)).toNat ∧ t = s.raise .invalidAddress s.op) := by
  simp only [exec, execJpV0] at h
  split at h
  next hl => cases h; exact .inl ⟨hl, rfl⟩
  next hl => cases h; exact .inr ⟨by omega, rfl⟩

/-- `DRW` has drawn nothing (`n = 0`), drawn the rows it read, or raised because a row is out of range (R201 to R203). -/
theorem exec_drw_cases {x y n : Nibble} {s t : State} (h : exec (.drw x y n) s = .next t) :
    (n = 0 ∧ t = s.setV vF 0x00) ∨
    (n ≠ 0 ∧ ∃ rows, s.memReadList s.i n.toNat = some rows ∧ rows.length = n.toNat ∧
      t = s.displayDraw (s.getV x) (s.getV y) rows) ∨
    (n ≠ 0 ∧ Config.memSize < s.i.toNat + n.toNat ∧ t = s.raise .badMemoryAccess s.op) := by
  by_cases hn : n = 0
  · simp only [exec, execDrw, if_pos hn] at h
    cases h; exact .inl ⟨hn, rfl⟩
  · have h0 : n.toNat ≠ 0 := fun he => hn (BitVec.eq_of_toNat_eq he)
    by_cases hl : s.i.toNat + n.toNat ≤ Config.memSize
    · obtain ⟨rows, hr, hlen, -⟩ := State.memReadList_of_le s hl
      simp only [exec, execDrw, if_neg hn, hr, answer] at h
      cases h; exact .inr (.inl ⟨hn, rows, hr, hlen, rfl⟩)
    · simp only [exec, execDrw, if_neg hn, State.memReadList_of_gt s (a := s.i) (n := n.toNat) (by omega) (by omega), answer] at h
      cases h; exact .inr (.inr ⟨hn, by omega, rfl⟩)

/-- Of `LD B`: only memory has changed, or it has raised after some of the writes (R193, R86). -/
theorem exec_ldB_cases {x : Nibble} {s t : State} (h : exec (.ldB x) s = .next t) :
    ∃ m, (s.mem.wf = true → m.wf = true) ∧
      ((s.i.toNat + 3 ≤ Config.memSize ∧ t = { s with mem := m }) ∨
        (Config.memSize < s.i.toNat + 3 ∧ t = State.raise { s with mem := m } .badMemoryAccess s.op)) := by
  have hd : (decimalDigits (s.getV x)).length = 3 := rfl
  by_cases hl : s.i.toNat + (decimalDigits (s.getV x)).length ≤ Config.memSize
  · simp only [exec, execLdB, State.memWriteList_of_le s hl, answer] at h
    cases h; exact ⟨_, fun hw => Memory.wf_writeList _ hw hl, .inl ⟨hd ▸ hl, rfl⟩⟩
  · have hg := State.memWriteList_of_gt s (a := s.i) (bs := decimalDigits (s.getV x)) (by simp [decimalDigits]) (by omega)
    simp only [exec, execLdB, hg, answer] at h
    cases h
    exact ⟨_, fun hw => State.memWriteList_error_wf s hg hw, .inr ⟨by omega, rfl⟩⟩

/-- Of `LD [I]`: only memory and `I` have changed, or it has raised after some of the writes (R194, R86). -/
theorem exec_storeRegs_cases {x : Nibble} {s t : State} (h : exec (.storeRegs x) s = .next t) :
    ∃ m, (s.mem.wf = true → m.wf = true) ∧
      ((s.i.toNat + x.toNat < Config.memSize ∧ t = { s with mem := m, i := s.i + BitVec.ofNat 16 (x.toNat + 1) }) ∨
        (Config.memSize ≤ s.i.toNat + x.toNat ∧ t = State.raise { s with mem := m } .badMemoryAccess s.op)) := by
  have hd : (s.regsUpTo x).length = x.toNat + 1 := by simp [State.regsUpTo]
  by_cases hl : s.i.toNat + (s.regsUpTo x).length ≤ Config.memSize
  · simp only [exec, execStoreRegs, State.memWriteList_of_le s hl, answer] at h
    cases h; exact ⟨_, fun hw => Memory.wf_writeList _ hw hl, .inl ⟨by omega, rfl⟩⟩
  · have hg := State.memWriteList_of_gt s (a := s.i) (bs := s.regsUpTo x) (by simp [State.regsUpTo]) (by omega)
    simp only [exec, execStoreRegs, hg, answer] at h
    cases h
    exact ⟨_, fun hw => State.memWriteList_error_wf s hg hw, .inr ⟨by omega, rfl⟩⟩

/-- Of `LD Vx, [I]`: only the registers and `I` have changed, or it has raised after some of the loads (R195, R86). -/
theorem exec_loadRegs_cases {x : Nibble} {s t : State} (h : exec (.loadRegs x) s = .next t) :
    ∃ v, (s.i.toNat + x.toNat < Config.memSize ∧ t = { s with v := v, i := s.i + BitVec.ofNat 16 (x.toNat + 1) }) ∨
      (Config.memSize ≤ s.i.toNat + x.toNat ∧ t = State.raise { s with v := v } .badMemoryAccess s.op) := by
  have hx := x.isLt
  by_cases hl : s.i.toNat + x.toNat < Config.memSize
  · obtain ⟨u, hu, hv, -⟩ := State.loadRegsFrom_of_le (s := s) (i0 := s.i) (k := 0) (n := x.toNat + 1) (by omega) (by omega)
    simp only [exec, execLoadRegs, hu, answer] at h
    cases h; rw [hv]; exact ⟨_, .inl ⟨hl, rfl⟩⟩
  · obtain ⟨u, hu, hv, -⟩ := State.loadRegsFrom_of_gt (s := s) (i0 := s.i) (k := 0) (n := x.toNat + 1) (by omega) (by omega)
      (by omega) (by omega)
    simp only [exec, execLoadRegs, hu, answer] at h
    cases h; rw [hv]; exact ⟨_, .inr ⟨by omega, rfl⟩⟩

/-- Of one instruction that answers `t`: the work item, the agenda, the key port and latch, the command answer are left alone; and
either it did not raise, and `STATUS.HALT`, the error registers and the scheduler are left alone too, or it raised (R256). -/
theorem exec_frame {i : Instr} {s t : State} (h : exec i s = .next t) :
    t.pc0 = s.pc0 ∧ t.op = s.op ∧ t.agenda = s.agenda ∧ t.keys = s.keys ∧ t.cmdStatus = s.cmdStatus ∧ t.kk = s.kk ∧
      ((t.halt = s.halt ∧ t.errCode = s.errCode ∧ t.errPc = s.errPc ∧ t.errOp = s.errOp ∧ t.armed = s.armed ∧
          t.execPend = s.execPend ∧ t.timerPend = s.timerPend) ∨
        (t.halt = .haltErr ∧ t.errCode.isSome = true ∧ t.phase = .idle ∧ t.errPc = s.pc0 ∧ t.errOp = s.op ∧
          t.armed = false ∧ t.execPend = false ∧ t.timerPend = false)) := by
  cases i with
  | call nnn => obtain ⟨_, rfl⟩ | ⟨_, rfl⟩ := exec_call_cases h <;> simp
  | ret => obtain ⟨_, rfl⟩ | ⟨_, rfl⟩ := exec_ret_cases h <;> simp
  | jpV0 nnn => obtain ⟨_, rfl⟩ | ⟨_, rfl⟩ := exec_jpV0_cases h <;> simp
  | drw x y n => obtain ⟨_, rfl⟩ | ⟨_, _, _, _, rfl⟩ | ⟨_, _, rfl⟩ := exec_drw_cases h <;> simp [State.displayDraw]
  | ldB x => obtain ⟨_, _, ⟨_, rfl⟩ | ⟨_, rfl⟩⟩ := exec_ldB_cases h <;> simp
  | storeRegs x => obtain ⟨_, _, ⟨_, rfl⟩ | ⟨_, rfl⟩⟩ := exec_storeRegs_cases h <;> simp
  | loadRegs x => obtain ⟨_, ⟨_, rfl⟩ | ⟨_, rfl⟩⟩ := exec_loadRegs_cases h <;> simp
  | seImm | sneImm | seReg | sneReg | skp | sknp =>
    cases h
    simp only [State.skipIf]
    split <;> simp
  | _ => cases h; simp [State.setFlagThenResult, State.setMasked, State.drawRandom]

end Sys2Proof.Machine
end

