-- ==== Sys2Proof/Tests/Slice0.lean ====
section
/-! SUPPORT. The model's own tests. Opcodes, start states and results are those of the spec's vectors (95_test_vectors, S and V
numbers) or written out from the opcode map of 30_encoding R110; and for every statement with hypotheses a state that meets them. -/

namespace Sys2Proof.Tests

open Sys2Proof.Machine Sys2Proof.Claims

/-! ### Which opcodes are well formed -/

/-- V5 (D5): family 0 has two opcodes. -/
theorem test_illformed_family0 :
    [0x00E1#16, 0x01E0#16, 0x0000#16, 0x0200#16].all (fun op => !wellFormedOpcode op && decode op == none) = true := by decide

/-- V4 (D5): `5xyn` needs `n = 0`. -/
theorem test_illformed_family5 : wellFormedOpcode 0x5121#16 = false ∧ decode 0x5121#16 = none := by decide

/-- V3: the selectors family 8 does not have. -/
theorem test_illformed_family8 :
    [0x8AB8#16, 0x8AB9#16, 0x8ABA#16, 0x8ABB#16, 0x8ABC#16, 0x8ABD#16, 0x8ABF#16].all
      (fun op => !wellFormedOpcode op && decode op == none) = true := by decide

/-- R112 (D5): `9xyn` needs `n = 0`. -/
theorem test_illformed_family9 : wellFormedOpcode 0x9121#16 = false ∧ decode 0x9121#16 = none := by decide

/-- V6. -/
theorem test_illformed_familyE :
    [0xE19F#16, 0xE100#16].all (fun op => !wellFormedOpcode op && decode op == none) = true := by decide

/-- V7. -/
theorem test_illformed_familyF :
    [0xF066#16, 0xF000#16, 0xF075#16, 0xF085#16].all (fun op => !wellFormedOpcode op && decode op == none) = true := by decide

/-- Well-formed opcodes of the same families. -/
theorem test_wellformed :
    [0x00E0#16, 0x00EE#16, 0x5120#16, 0x810E#16, 0x9120#16, 0xE1A1#16, 0xFF55#16].all wellFormedOpcode = true := by decide

/-! ### Decoding, one word a constructor (R110) -/

theorem test_decode_family0_to_4 :
    decode 0x00E0#16 = some .cls ∧ decode 0x00EE#16 = some .ret ∧ decode 0x1234#16 = some (.jp 0x234) ∧
    decode 0x220A#16 = some (.call 0x20A) ∧ decode 0x332A#16 = some (.seImm 3 0x2A) ∧
    decode 0x432A#16 = some (.sneImm 3 0x2A) := by decide

theorem test_decode_family5_to_7 :
    decode 0x5120#16 = some (.seReg 1 2) ∧ decode 0x6A81#16 = some (.ldImm 0xA 0x81) ∧
    decode 0x7F03#16 = some (.addImm 0xF 0x03) := by decide

theorem test_decode_family8 :
    decode 0x8BF0#16 = some (.ldReg 0xB 0xF) ∧ decode 0x8121#16 = some (.orReg 1 2) ∧
    decode 0x8122#16 = some (.andReg 1 2) ∧ decode 0x8123#16 = some (.xorReg 1 2) ∧
    decode 0x8AB4#16 = some (.addReg 0xA 0xB) ∧ decode 0x8125#16 = some (.sub 1 2) ∧
    decode 0x81F6#16 = some (.shr 1 0xF) ∧ decode 0x8127#16 = some (.subn 1 2) ∧
    decode 0x812E#16 = some (.shl 1 2) := by decide

theorem test_decode_family9_to_D :
    decode 0x9120#16 = some (.sneReg 1 2) ∧ decode 0xAFFF#16 = some (.ldI 0xFFF) ∧ decode 0xB1FE#16 = some (.jpV0 0x1FE) ∧
    decode 0xC30F#16 = some (.rnd 3 0x0F) ∧ decode 0xD7A5#16 = some (.drw 7 0xA 5) := by decide

theorem test_decode_familyE_F :
    decode 0xE59E#16 = some (.skp 5) ∧ decode 0xE5A1#16 = some (.sknp 5) ∧ decode 0xF107#16 = some (.ldVxDt 1) ∧
    decode 0xF30A#16 = some (.ldVxK 3) ∧ decode 0xF215#16 = some (.ldDtVx 2) ∧ decode 0xF218#16 = some (.ldStVx 2) ∧
    decode 0xF01E#16 = some (.addI 0) ∧ decode 0xF429#16 = some (.ldF 4) ∧ decode 0xF033#16 = some (.ldB 0) ∧
    decode 0xFF55#16 = some (.storeRegs 0xF) ∧ decode 0xF065#16 = some (.loadRegs 0) := by decide

/-- V9: the byte at the lower address is the high byte. -/
theorem test_decode_bytes_big_endian :
    decodeBytes [0x12, 0x00, 0xAA] = .ok (.jp 0x200, [0xAA]) ∧
    decodeBytes [0x00, 0x12] = .error (.illegalInstruction 0x0012) ∧ decodeBytes [0x12] = .error .truncated := by
  refine ⟨rfl, rfl, rfl⟩

/-- The table's numbering: bit 0 is the opcode's bit 0. -/
theorem test_decode_table_word : decodeTableWord 16 0xD7A5 = some (.drw 7 0xA 5) := by decide

/-! ### One step -/

/-- After power-on, with `op` at `pc`, the registers given, and an execution tick about to be delivered. -/
def ready (pc op : Word) (regs : List (Nibble × Byte)) : State :=
  let s := regs.foldl (fun t r => t.setV r.1 r.2) State.reset
  { s with
    pc := pc, mem := s.mem.writeList pc.toNat [opcodeHigh op, opcodeLow op], armed := true, execPend := true,
    agenda := [.deliver] }

/-- The state after power-on with these events about to happen. -/
def upcoming (es : List Event) : State := { State.reset with agenda := es }

/-- `r` is a next state with the property. -/
def Holds (r : Result) (p : State → Bool) : Bool :=
  match r with
  | .next t => p t
  | _ => false

/-- V11. -/
theorem test_jp : Holds (step (ready 0x200 0x1234 [])) (fun t => t.pc == 0x234) = true := by decide

/-- S5. -/
theorem test_jp_self_halts :
    Holds (step (ready 0x200 0x1200 []))
      (fun t => t.halt == .haltSelf && t.errCode == none && t.schedBits == 0 && t.pc == 0x200) = true := by decide

/-- V14. -/
theorem test_call :
    Holds (step { ready 0x300 0x2400 [] with sp := 15 })
      (fun t => t.stackAt 15 == 0x302 && t.sp == 16 && t.pc == 0x400) = true := by decide

/-- V15. -/
theorem test_call_overflow :
    Holds (step { ready 0x300 0x2400 [] with sp := 16 })
      (fun t => t.statusByte == 0b00001110 && t.errPc == 0x300 && t.errOp == 0x2400 && t.pc == 0x302 && t.sp == 16) = true := by
  decide

/-- V16. -/
theorem test_ret :
    Holds (step { ready 0x20C 0x00EE [] with sp := 1, stack := State.reset.stack.set 0 0x206 })
      (fun t => t.sp == 0 && t.pc == 0x206 && t.stackAt 0 == 0x206) = true := by decide

/-- V17. -/
theorem test_ret_underflow :
    Holds (step (ready 0x200 0x00EE []))
      (fun t => t.statusByte == 0b00010010 && t.errPc == 0x200 && t.errOp == 0x00EE && t.pc == 0x202) = true := by decide

/-- V18 (D8). -/
theorem test_jpV0 : Holds (step (ready 0x200 0xB300 [(0, 0x04), (3, 0x10)])) (fun t => t.pc == 0x304) = true := by decide

/-- V19. -/
theorem test_jpV0_out_of_range :
    Holds (step (ready 0x200 0xBFFF [(0, 0xFF)]))
      (fun t => t.errCode == some .invalidAddress && t.errOp == 0xBFFF && t.pc == 0x202) = true := by decide

/-- V24, V25. -/
theorem test_seImm :
    Holds (step (ready 0x200 0x332A [(3, 0x2A)])) (fun t => t.pc == 0x204) = true ∧
    Holds (step (ready 0x200 0x332A [(3, 0x2B)])) (fun t => t.pc == 0x202) = true := by decide

/-- V26. -/
theorem test_sneImm :
    Holds (step (ready 0x200 0x432A [(3, 0x2A)])) (fun t => t.pc == 0x202) = true ∧
    Holds (step (ready 0x200 0x432A [(3, 0x2B)])) (fun t => t.pc == 0x204) = true := by decide

/-- V28. -/
theorem test_seReg : Holds (step (ready 0x200 0x5120 [(1, 0x07), (2, 0x08)])) (fun t => t.pc == 0x202) = true := by decide

/-- V28. -/
theorem test_sneReg : Holds (step (ready 0x200 0x9120 [(1, 0x07), (2, 0x08)])) (fun t => t.pc == 0x204) = true := by decide

/-- V31. -/
theorem test_ldImm : Holds (step (ready 0x200 0x6A81 [])) (fun t => t.getV 0xA == 0x81 && t.pc == 0x202) = true := by decide

/-- V32 (D41). -/
theorem test_addImm :
    Holds (step (ready 0x200 0x7002 [(0, 0xFF)])) (fun t => t.getV 0 == 0x01 && t.getV 0xF == 0x00) = true := by decide

/-- V34. -/
theorem test_ldReg : Holds (step (ready 0x200 0x8BF0 [(0xF, 0x01)])) (fun t => t.getV 0xB == 0x01) = true := by decide

/-- V35 (D7). -/
theorem test_or :
    Holds (step (ready 0x200 0x8121 [(1, 0xF0), (2, 0x0F), (0xF, 0x55)])) (fun t => t.getV 1 == 0xFF && t.getV 0xF == 0x55)
      = true := by decide

/-- V36. -/
theorem test_and :
    Holds (step (ready 0x200 0x8122 [(1, 0xF3), (2, 0x3F), (0xF, 0x55)])) (fun t => t.getV 1 == 0x33 && t.getV 0xF == 0x55)
      = true := by decide

/-- V37. -/
theorem test_xor :
    Holds (step (ready 0x200 0x8113 [(1, 0xA5), (0xF, 0x55)])) (fun t => t.getV 1 == 0x00 && t.getV 0xF == 0x55) = true := by
  decide

/-- S1. -/
theorem test_add_carry :
    Holds (step (ready 0x200 0x8124 [(1, 0xFF), (2, 0x01)])) (fun t => t.getV 1 == 0x00 && t.getV 0xF == 0x01) = true := by
  decide

/-- V40 and V41 (D6): `y = F`, then `x = F`. -/
theorem test_add_with_vF :
    Holds (step (ready 0x200 0x81F4 [(1, 0x10), (0xF, 0x05)])) (fun t => t.getV 1 == 0x15 && t.getV 0xF == 0x00) = true ∧
    Holds (step (ready 0x200 0x8F14 [(0xF, 0xFF), (1, 0x01)])) (fun t => t.getV 0xF == 0x00) = true := by decide

/-- S2. -/
theorem test_sub_borrow :
    Holds (step (ready 0x200 0x8125 [(1, 0x01), (2, 0x02)])) (fun t => t.getV 1 == 0xFF && t.getV 0xF == 0x00) = true := by
  decide

/-- V43: equal operands do not borrow. -/
theorem test_sub_equal :
    Holds (step (ready 0x200 0x8125 [(1, 0x07), (2, 0x07)])) (fun t => t.getV 1 == 0x00 && t.getV 0xF == 0x01) = true := by
  decide

/-- V46, V47. -/
theorem test_subn :
    Holds (step (ready 0x200 0x8127 [(1, 0x02), (2, 0x05)])) (fun t => t.getV 1 == 0x03 && t.getV 0xF == 0x01) = true ∧
    Holds (step (ready 0x200 0x8127 [(1, 0x05), (2, 0x02)])) (fun t => t.getV 1 == 0xFD && t.getV 0xF == 0x00) = true := by
  decide

/-- S3. -/
theorem test_shr :
    Holds (step (ready 0x200 0x8106 [(1, 0x03)])) (fun t => t.getV 1 == 0x01 && t.getV 0xF == 0x01) = true := by decide

/-- V49: `Vy` is not used. -/
theorem test_shr_ignores_y :
    Holds (step (ready 0x200 0x8126 [(1, 0x04), (2, 0xFF)]))
      (fun t => t.getV 1 == 0x02 && t.getV 0xF == 0x00 && t.getV 2 == 0xFF) = true := by decide

/-- S4. -/
theorem test_shl :
    Holds (step (ready 0x200 0x810E [(1, 0x81)])) (fun t => t.getV 1 == 0x02 && t.getV 0xF == 0x01) = true := by decide

/-- V52 (D6). -/
theorem test_shl_of_vF : Holds (step (ready 0x200 0x8F0E [(0xF, 0x81)])) (fun t => t.getV 0xF == 0x02) = true := by decide

/-- V53: the mask 0 gives 0, whatever the sample. -/
theorem test_rnd_mask_zero : ∀ r : Byte, (State.reset.setMasked 3 0x00 r).getV 3 = 0x00 := by decide

/-- V53: the sample `0xA7` under the mask `0x0F`. -/
theorem test_rnd_mask : (State.reset.setMasked 3 0x0F 0xA7).getV 3 = 0x07 := by decide

/-- V54. -/
theorem test_ldI : Holds (step { ready 0x200 0xAFFF [] with i := 0xFFFF }) (fun t => t.i == 0x0FFF) = true := by decide

/-- V55 (D9). -/
theorem test_addI_no_wrap_at_12_bits :
    Holds (step { ready 0x200 0xF01E [(0, 0x01)] with i := 0x0FFF }) (fun t => t.i == 0x1000 && t.getV 0xF == 0x00) = true := by
  decide

/-- V56. -/
theorem test_addI_wraps :
    Holds (step { ready 0x200 0xF01E [(0, 0x01)] with i := 0xFFFF }) (fun t => t.i == 0x0000) = true := by decide

/-- V57 (D10). -/
theorem test_ldF :
    Holds (step (ready 0x200 0xF429 [(4, 0x0B)])) (fun t => t.i == 0x0087) = true ∧
    Holds (step (ready 0x200 0xF429 [(4, 0x1A)])) (fun t => t.i == 0x0082) = true := by decide

/-- V58 (D37, D43). -/
theorem test_ldB :
    Holds (step { ready 0x200 0xF033 [(0, 0xEA)] with i := 0x300 })
      (fun t => t.mem.read 0x300 == 2 && t.mem.read 0x301 == 3 && t.mem.read 0x302 == 4 && t.i == 0x300) = true := by decide

/-- V59 (D20). -/
theorem test_ldB_past_the_end :
    Holds (step { ready 0x200 0xF033 [(0, 0x7B)] with i := 0xFFE })
      (fun t => t.mem.read 0xFFE == 1 && t.mem.read 0xFFF == 2 && t.errCode == some .badMemoryAccess && t.errPc == 0x200 &&
        t.errOp == 0xF033 && t.pc == 0x202 && t.i == 0xFFE) = true := by decide

/-- V60. -/
theorem test_storeRegs :
    Holds (step { ready 0x200 0xF255 [(0, 0x0A), (1, 0x0B), (2, 0x0C), (3, 0x0D)] with i := 0x400 })
      (fun t => t.mem.read 0x400 == 0x0A && t.mem.read 0x401 == 0x0B && t.mem.read 0x402 == 0x0C && t.mem.read 0x403 == 0 &&
        t.i == 0x403) = true := by decide

/-- V123 (D25): the font is writable. -/
theorem test_store_into_font :
    Holds (step { ready 0x200 0xF055 [(0, 0xAB)] with i := 0x050 }) (fun t => t.mem.read 0x050 == 0xAB) = true := by decide

/-- V61. -/
theorem test_loadRegs :
    let s := ready 0x200 0xF265 [(3, 0x99)]
    Holds (step { s with i := 0x300, mem := s.mem.writeList 0x300 [2, 3, 4, 5] })
      (fun t => t.getV 0 == 2 && t.getV 1 == 3 && t.getV 2 == 4 && t.getV 3 == 0x99 && t.i == 0x303) = true := by decide

/-- V65. -/
theorem test_loadRegs_past_the_end :
    let s := ready 0x200 0xF165 [(1, 0x11)]
    Holds (step { s with i := 0xFFF, mem := s.mem.write 0xFFF 0x5A })
      (fun t => t.getV 0 == 0x5A && t.getV 1 == 0x11 && t.errCode == some .badMemoryAccess && t.i == 0xFFF) = true := by decide

/-- V70. -/
theorem test_cls :
    Holds (step { ready 0x200 0x00E0 [(0xF, 0x55)] with display := Display.cleared.flip 3 4 })
      (fun t => !t.display.pixel 3 4 && t.txns == [.clear] && t.getV 0xF == 0x55) = true := by decide

/-- V74. -/
theorem test_drw_collides :
    let s := ready 0x200 0xD011 []
    Holds (step { s with i := 0x300, mem := s.mem.write 0x300 0xC0, display := Display.cleared.flip 0 0 })
      (fun t => !t.display.pixel 0 0 && t.display.pixel 1 0 && t.getV 0xF == 0x01) = true := by decide

/-- V72: wraps on both axes. -/
theorem test_drw_wraps :
    let s := ready 0x200 0xD012 [(0, 0x3E), (1, 0x1F)]
    Holds (step { s with i := 0x300, mem := s.mem.writeList 0x300 [0xFF, 0xFF], display := Display.cleared })
      (fun t => t.display.pixel 62 31 && t.display.pixel 63 0 && t.display.pixel 5 0 && !t.display.pixel 6 0 &&
        !t.display.pixel 61 31 && t.txns == [.draw 0x3E 0x1F [0xFF, 0xFF]] && t.getV 0xF == 0x00) = true := by decide

/-- V80. -/
theorem test_skp :
    Holds (step { ready 0x220 0xE59E [(5, 0x0A)] with keys := 0x0400 }) (fun t => t.pc == 0x224) = true := by decide

/-- V82 (D12). -/
theorem test_sknp_above_0F :
    Holds (step { ready 0x220 0xE5A1 [(5, 0x1A)] with keys := 0x0400 }) (fun t => t.pc == 0x224) = true := by decide

/-- V83, begin. -/
theorem test_ldVxK_begins :
    Holds (step (ready 0x210 0xF30A [])) (fun t => t.kx == 3 && t.phase == .keyPress && t.pc == 0x212) = true := by decide

/-- V84, latch: the lowest key down (D13). -/
theorem test_key_latch_lowest :
    Holds (step { upcoming [.keyProgress] with phase := .keyPress, keys := 0x0088 })
      (fun t => t.kk == 3 && t.phase == .keyRelease) = true := by decide

/-- V91. -/
theorem test_ldVxDt : Holds (step { ready 0x200 0xF107 [] with dt := 0x3C }) (fun t => t.getV 1 == 0x3C) = true := by decide

/-- V90. -/
theorem test_ldDtVx : Holds (step (ready 0x200 0xF015 [(0, 0x03)])) (fun t => t.dt == 0x03) = true := by decide

/-- V92 (D30), V93. -/
theorem test_ldStVx :
    Holds (step (ready 0x200 0xF218 [(2, 0x1E)])) (fun t => t.st == 0x1E && t.soundOn) = true ∧
    Holds (step { ready 0x200 0xF218 [(2, 0x00)] with st := 0x1E }) (fun t => t.st == 0x00 && !t.soundOn) = true := by decide

/-- V94. -/
theorem test_timer_tick :
    Holds (step { upcoming [.deliver] with armed := true, timerPend := true, dt := 0x02, st := 0x01 })
      (fun t => t.dt == 0x01 && t.st == 0x00 && !t.soundOn && !t.timerPend) = true := by decide

/-- V112: a fetch fault. -/
theorem test_fetch_fault :
    Holds (step { ready 0x200 0x00E0 [] with pc := 0x0FFF })
      (fun t => t.errCode == some .badMemoryAccess && t.errPc == 0x0FFF && t.errOp == 0x0000 && t.pc == 0x0FFF) = true := by
  decide

/-- V111: an illegal opcode. -/
theorem test_illegal :
    Holds (step (ready 0x200 0x8AB8 []))
      (fun t => t.statusByte == 0b00001010 && t.errPc == 0x200 && t.errOp == 0x8AB8 && t.pc == 0x202) = true := by decide

/-- V110: from reset, `cmd_start` and one tick raise at address 0. -/
theorem test_start_without_load :
    Holds (core.run 3 (upcoming [.cmdStart, .execFire, .deliver]))
      (fun t => t.errCode == some .illegalInstruction && t.errPc == 0 && t.errOp == 0 && t.pc == 0x0002 && t.schedBits == 0)
      = true := by decide

/-- S5 whole: load, reset, start, trigger, delivery. -/
theorem test_run_from_reset :
    Holds (core.run 5 (upcoming [.cmdLoad 0x200 [0x12, 0x00], .cmdReset 0x200, .cmdStart, .execFire, .deliver]))
      (fun t => t.halt == .haltSelf && t.pc == 0x200 && t.cmdStatus == .ok) = true := by decide

/-- S10. -/
theorem test_start_stop :
    Holds (core.run 2 (upcoming [.cmdStart, .cmdStop])) (fun t => t.schedBits == 0 && t.pc == 0) = true := by decide

/-- V114 (D16). -/
theorem test_cmdReset_bound :
    Holds (step (upcoming [.cmdReset 0x0FFF])) (fun t => t.cmdStatus == .invalidAddress && t.pc == 0) = true ∧
    Holds (step (upcoming [.cmdReset 0x0FFE])) (fun t => t.cmdStatus == .ok && t.pc == 0x0FFE) = true := by decide

/-- V121. -/
theorem test_cmdLoad_bound :
    Holds (step (upcoming [.cmdLoad 0x0FFE [0xAA]])) (fun t => t.cmdStatus == .ok && t.mem.read 0xFFE == 0xAA) = true ∧
    Holds (step (upcoming [.cmdLoad 0x0FFF [0xAA]])) (fun t => t.cmdStatus == .loadTooLarge && t.mem == []) = true ∧
    Holds (step (upcoming [.cmdLoad 0x0FFF []])) (fun t => t.cmdStatus == .ok && t.mem == []) = true := by decide

/-- V122 (D23, D24). -/
theorem test_power_on_memory :
    (List.range 5).map (fun k => State.reset.mem.read (0x050 + k)) = [0xF0, 0x90, 0x90, 0x90, 0xF0] ∧
    (List.range 5).map (fun k => State.reset.mem.read (0x09B + k)) = [0xF0, 0x80, 0xF0, 0x80, 0x80] ∧
    State.reset.mem.read 0x04F = 0 ∧ State.reset.mem.read 0x0A0 = 0 ∧ State.reset.mem.read 0x200 = 0 := by decide

/-- A placed instruction runs as the first one after reset. -/
theorem test_placed_after_reset :
    Holds (step (State.reset.withFetchWord 16 0x6A81)) (fun t => t.getV 0xA == 0x81 && t.pc == 2 && t.op == 0x6A81) = true := by
  decide

/-! ### For every statement with hypotheses, states and operands that meet them -/

theorem witness_EncodeDecodeRoundTrip : decode 0xFF65#16 = some (.loadRegs 0xF) := by decide

theorem witness_LegalOpcodesSelectExactlyOneRow :
    (⟨0xF00F, 0x8006⟩ : OpcodeRow) ∈ opcodeMap ∧ OpcodeRow.selects ⟨0xF00F, 0x8006⟩ 0x81F6 = true ∧
    decode 0x81F6#16 = some (.shr 1 0xF) := by decide

/-- The two bytes at the last address an opcode fits. -/
theorem witness_StepRunsDecodedInstruction :
    ExecTickNext (ready 0xFFE 0x6A81 []) [] ∧ (ready 0xFFE 0x6A81 []).pc.toNat ≤ 0xFFE ∧
    (ready 0xFFE 0x6A81 []).mem.read 0xFFE = 0x6A ∧ (ready 0xFFE 0x6A81 []).mem.read 0xFFF = 0x81 ∧
    decode (opcodeOfBytes 0x6A 0x81) = some (.ldImm 0xA 0x81) :=
  ⟨⟨rfl, rfl, rfl, rfl, rfl⟩, by decide, by decide, by decide, by decide⟩

theorem witness_PlacedInstructionRunsNext :
    State.reset.mem.wf = true ∧ decodeTableWord 16 0x00E0 = some .cls := by decide

theorem witness_FetchBeyondMemoryHalts :
    ExecTickNext { ready 0x200 0x00E0 [] with pc := 0xFFF } [] ∧ 0xFFE < (0xFFF : Word).toNat :=
  ⟨⟨rfl, rfl, rfl, rfl, rfl⟩, by decide⟩

theorem witness_IllegalOpcodeHalts :
    ExecTickNext (ready 0xFFE 0x8AB8 []) [] ∧ (ready 0xFFE 0x8AB8 []).pc.toNat ≤ 0xFFE ∧
    (ready 0xFFE 0x8AB8 []).mem.read 0xFFE = 0x8A ∧ (ready 0xFFE 0x8AB8 []).mem.read 0xFFF = 0xB8 ∧
    decode (opcodeOfBytes 0x8A 0xB8) = none :=
  ⟨⟨rfl, rfl, rfl, rfl, rfl⟩, by decide, by decide, by decide, by decide⟩

/-- A jump to itself, and a load that goes on. -/
theorem witness_HaltCheckComparesPcWithFetchAddress :
    (ExecTickNext (ready 0x200 0x1200 []) [] ∧ (begun (ready 0x200 0x1200 []) []).fetchOpcode = some 0x1200 ∧
      decode 0x1200#16 = some (.jp 0x200) ∧
      Holds (exec (.jp 0x200) ((begun (ready 0x200 0x1200 []) []).fetched 0x1200))
        (fun t => t.halt == .run && t.phase == .idle && t.pc == 0x200) = true) ∧
    (ExecTickNext (ready 0x200 0x6A81 []) [] ∧ (begun (ready 0x200 0x6A81 []) []).fetchOpcode = some 0x6A81 ∧
      decode 0x6A81#16 = some (.ldImm 0xA 0x81) ∧
      Holds (exec (.ldImm 0xA 0x81) ((begun (ready 0x200 0x6A81 []) []).fetched 0x6A81))
        (fun t => t.halt == .run && t.phase == .idle && t.pc == 0x202) = true) :=
  ⟨⟨⟨rfl, rfl, rfl, rfl, rfl⟩, by decide, by decide, by decide⟩, ⟨⟨rfl, rfl, rfl, rfl, rfl⟩, by decide, by decide, by decide⟩⟩

/-- Both outcomes: to the next instruction, and over one. -/
theorem witness_OnlyTransfersCanHaltAtSelf :
    let s : State := { State.reset with pc := 2 }
    exec (.seImm 0 0) s = .next { s with pc := 4 } ∧ exec (.seImm 0 1) s = .next s ∧ s.halt = .run ∧ s.pc = s.pc0 + 2 :=
  ⟨rfl, rfl, rfl, rfl⟩

/-- Each row of the table of errors. -/
theorem witness_ErrorsOnlyAsTabled :
    Holds (exec (.jpV0 0xFFF) (State.reset.setV 0 1)) (fun t => t.errCode == some .invalidAddress) = true ∧
    Holds (exec (.call 0x200) { State.reset with sp := 16 }) (fun t => t.errCode == some .stackOverflow) = true ∧
    Holds (exec .ret State.reset) (fun t => t.errCode == some .stackUnderflow) = true ∧
    Holds (exec (.drw 0 0 1) { State.reset with i := 0x1000 }) (fun t => t.errCode == some .badMemoryAccess) = true ∧
    Holds (exec (.ldB 0) { State.reset with i := 0xFFE }) (fun t => t.errCode == some .badMemoryAccess) = true ∧
    Holds (exec (.storeRegs 0) { State.reset with i := 0x1000 }) (fun t => t.errCode == some .badMemoryAccess) = true ∧
    Holds (exec (.loadRegs 1) { State.reset with i := 0xFFF }) (fun t => t.errCode == some .badMemoryAccess) = true ∧
    State.reset.halt = .run ∧ State.reset.errCode = none := by decide

/-- A machine halted in error whose tick is discarded. -/
theorem witness_OnlyInstructionsRaiseErrors :
    Holds (step { upcoming [.cmdStop] with halt := .haltErr, errCode := some .stackOverflow }) (fun t => t.halt == .haltErr) = true ∧
    Holds (step { upcoming [.deliver] with halt := .haltErr, timerPend := true }) (fun t => t.halt == .haltErr) = true := by decide

/-- A halted state that meets the invariant. -/
def halted (e : Event) : State := { upcoming [e] with halt := .haltSelf }

theorem halted_inv (e : Event) : (halted e).Inv where
  memWf := rfl
  armedRuns := nofun
  haltedIdle := fun _ => rfl
  errCodeIff := by simp [halted, upcoming, State.reset]
  execPendArmed := nofun
  timerPendArmed := nofun
  waitNoExec := fun _ => rfl
  waitPc := fun h => absurd rfl h
  pcBound := by simp [halted, upcoming, State.reset]
  stackBound := fun _ h => absurd h (Nat.not_lt_zero _)

theorem witness_HaltedMachineStaysPut :
    (halted .deliver).Inv ∧ (halted .deliver).halt ≠ .run ∧ (halted .deliver).agenda = [.deliver] ∧
    (halted .keyProgress).Inv ∧ (halted .keyProgress).agenda = [.keyProgress] ∧
    (halted .execFire).Inv ∧ (halted .execFire).agenda = [.execFire] ∧
    (halted .timerFire).Inv ∧ (halted .timerFire).agenda = [.timerFire] :=
  ⟨halted_inv _, by decide, rfl, halted_inv _, rfl, halted_inv _, rfl, halted_inv _, rfl⟩

/-- The fullest stack that takes one more, and the full one. -/
theorem witness_CallPushesOrOverflows :
    ({ State.reset with sp := 15 } : State).sp.val < 16 ∧ ({ State.reset with sp := 16 } : State).sp.val = 16 := by decide

theorem witness_RetPopsOrUnderflows :
    0 < ({ State.reset with sp := 1 } : State).sp.val ∧ State.reset.sp.val = 0 := by decide

/-- The last target in range, and the first out of range. -/
theorem witness_JpV0JumpsOrRaises :
    (0xF00 : Addr).toNat + ((State.reset.setV 0 0xFF).getV 0).toNat ≤ 0xFFF ∧
    0xFFF < (0xF01 : Addr).toNat + ((State.reset.setV 0 0xFF).getV 0).toNat := by decide

theorem witness_RetReturnsAfterCall :
    ({ State.reset with sp := 15 } : State).sp.val < 16 ∧
    Holds (exec (.call 0x300) { State.reset with sp := 15 }) (fun t => t.sp == 16) = true := by decide

/-- A key code that is down, one that is not, one above `0x0F`. -/
theorem witness_KeySkipsAdvancePc :
    let s : State := { (State.reset.setV 1 0x0F).setV 2 0x10 with keys := 0x8000 }
    ((s.getV 1).toNat ≤ 0x0F ∧ s.keys.getLsbD (s.getV 1).toNat = true) ∧ s.keys.getLsbD (s.getV 0).toNat = false ∧
    0x0F < (s.getV 2).toNat := by decide

/-- `x` is not `F`, and another register. -/
theorem witness_AddSetsResultAndCarry : (0xE : Nibble) ≠ 0xF ∧ (1 : Nibble) ≠ 0xE ∧ (1 : Nibble) ≠ 0xF := by decide

/-- Both flag values, with `x` not `F`. -/
theorem witness_SubtractionsSetResultAndNotBorrow :
    (0xE : Nibble) ≠ 0xF ∧ ((State.reset.setV 1 0).getV 2).toNat ≤ ((State.reset.setV 1 0).getV 1).toNat ∧
    ¬ ((State.reset.setV 1 1).getV 1).toNat ≤ ((State.reset.setV 1 1).getV 2).toNat ∧ (1 : Nibble) ≠ 0xE ∧ (1 : Nibble) ≠ 0xF := by
  decide

theorem witness_ShiftsSetResultAndBitOut :
    (0xE : Nibble) ≠ 0xF ∧ (1 : Nibble) ≠ 0xE ∧ (1 : Nibble) ≠ 0xF ∧ (0x81 : Byte).toNat % 2 = 1 ∧ (0x81 : Byte).toNat / 128 = 1 := by
  decide

/-- The last `I` in range, and the first out of range with two digits stored. -/
theorem witness_BcdStoresDigits :
    State.reset.mem.wf = true ∧ ({ State.reset with i := 0xFFD } : State).i.toNat + 2 ≤ 0xFFF ∧
    0xFFF < ({ State.reset with i := 0xFFE } : State).i.toNat + 2 ∧ ({ State.reset with i := 0xFFE } : State).i.toNat + 1 ≤ 0xFFF := by
  decide

theorem witness_BlockStoreWritesAndAdvances :
    State.reset.mem.wf = true ∧ ({ State.reset with i := 0xFF0 } : State).i.toNat + (0xF : Nibble).toNat ≤ 0xFFF ∧
    0xFFF < ({ State.reset with i := 0xFF1 } : State).i.toNat + (0xF : Nibble).toNat ∧
    ({ State.reset with i := 0xFF1 } : State).i.toNat + (0xE : Nibble).toNat ≤ 0xFFF := by decide

theorem witness_BlockLoadReadsAndAdvances :
    ({ State.reset with i := 0xFF0 } : State).i.toNat + (0xF : Nibble).toNat ≤ 0xFFF ∧
    0xFFF < ({ State.reset with i := 0xFFF } : State).i.toNat + (1 : Nibble).toNat ∧
    ({ State.reset with i := 0xFFF } : State).i.toNat + (0 : Nibble).toNat ≤ 0xFFF := by decide

theorem witness_BlockLoadRestoresBlockStore :
    State.reset.mem.wf = true ∧ ({ State.reset with i := 0xFF0 } : State).i.toNat + (0xF : Nibble).toNat ≤ 0xFFF := by decide

theorem witness_StoreSeenByNextFetch :
    let s : State := { State.reset with i := 0xFFE, pc := 0xFFE }
    s.mem.wf = true ∧ s.i = s.pc ∧ 1 ≤ (1 : Nibble).toNat ∧ s.i.toNat + (1 : Nibble).toNat ≤ 0xFFF := by decide

theorem witness_ReadAfterWriteGivesByte : Memory.wf [(0xFFE, 1)] = true ∧ 0xFFF < 0x1000 ∧ 0xFFE ≠ 0xFFF := by decide

theorem witness_OnlyStoresChangeMemory :
    (∀ x, Instr.jp 0x200 ≠ .ldB x) ∧ (∀ x, Instr.jp 0x200 ≠ .storeRegs x) ∧
    exec (.jp 0x200) State.reset = .next { State.reset with pc := 0x200 } := ⟨nofun, nofun, rfl⟩

theorem witness_DrwDrawsSprite :
    (2 : Nibble) ≠ 0 ∧ ({ State.reset with i := 0xFFE } : State).i.toNat + ((2 : Nibble).toNat - 1) ≤ 0xFFF := by decide

theorem witness_DrwEdgeCases :
    (2 : Nibble) ≠ 0 ∧ 0xFFF < ({ State.reset with i := 0xFFF } : State).i.toNat + ((2 : Nibble).toNat - 1) ∧ (0 : Nibble) = 0 := by
  decide

/-- Fifteen rows, with a bit and without. -/
theorem witness_DrawXorsSpriteOntoGrid :
    (List.replicate 15 (0x80 : Byte)).length ≤ 15 ∧
    ((Display.cleared.flip 0 0).draw 0 0 (List.replicate 15 0x80)).2 = true := by decide

theorem witness_DrawTwiceRestoresGrid :
    (List.replicate 15 (0x80 : Byte)).length ≤ 15 ∧ ∃ b ∈ List.replicate 15 (0x80 : Byte), b ≠ 0 := by decide

/-- Each of the three cases. -/
theorem witness_DisplayTransactionsOnlyFromClsAndDrw :
    exec (.jp 0x200) State.reset = .next { State.reset with pc := 0x200 } ∧
    Holds (exec .cls State.reset) (fun t => t.txns == [.clear]) = true ∧
    Holds (exec (.drw 0 1 5) { State.reset with i := 0x050 }) (fun t => t.txns == [.draw 0 0 [0xF0, 0x90, 0x90, 0x90, 0xF0]])
      = true := ⟨rfl, by decide, by decide⟩

/-- No key, then only the highest, then only the lowest key down. -/
theorem witness_KeyWaitLatchesLowestKey :
    let s : State := { upcoming [.keyProgress] with phase := .keyPress }
    s.agenda = [.keyProgress] ∧ s.phase = .keyPress ∧ s.keys = 0 ∧
    ((0x8000 : BitVec 16).getLsbD (0xF : Nibble).toNat = true ∧
      ∀ j, j < (0xF : Nibble).toNat → (0x8000 : BitVec 16).getLsbD j = false) ∧
    ((0x0001 : BitVec 16).getLsbD (0 : Nibble).toNat = true ∧
      ∀ j, j < (0 : Nibble).toNat → (0x0001 : BitVec 16).getLsbD j = false) := by decide

theorem witness_KeyWaitCompletesOnRelease :
    let s : State := { upcoming [.keyProgress] with phase := .keyRelease, pc := 2, kk := 0xF, keys := 0x7FFF }
    s.agenda = [.keyProgress] ∧ s.phase = .keyRelease ∧ s.pc = s.pc0 + 2 ∧ s.keys.getLsbD s.kk.toNat = false ∧
    (0x8000 : BitVec 16).getLsbD (0xF : Nibble).toNat = true := by decide

theorem witness_TimerTickDeliveredFirst :
    let s : State := { ready 0x200 0xF107 [] with timerPend := true }
    s.agenda = [.deliver] ∧ s.timerPend = true := by decide

theorem witness_TriggersSetPendingFlags :
    (upcoming [.execFire]).agenda = [.execFire] ∧ (upcoming [.timerFire]).agenda = [.timerFire] := by decide

theorem witness_StartAndStopSetScheduler :
    ((upcoming [.cmdStart]).agenda = [.cmdStart] ∧ (upcoming [.cmdStart]).halt = .run ∧ (upcoming [.cmdStart]).armed = false) ∧
    ((halted .cmdStart).agenda = [.cmdStart] ∧ (halted .cmdStart).halt ≠ .run) ∧
    (let s : State := { upcoming [.cmdStart] with armed := true }
     s.agenda = [.cmdStart] ∧ s.halt = .run ∧ s.armed = true) ∧
    (upcoming [.cmdStop]).agenda = [.cmdStop] := by decide

theorem upcoming_inv (es : List Event) : (upcoming es).Inv where
  memWf := rfl
  armedRuns := nofun
  haltedIdle := fun _ => rfl
  errCodeIff := by simp [upcoming, State.reset]
  execPendArmed := nofun
  timerPendArmed := nofun
  waitNoExec := fun _ => rfl
  waitPc := fun h => absurd rfl h
  pcBound := by simp [upcoming, State.reset]
  stackBound := fun _ h => absurd h (Nat.not_lt_zero _)

theorem witness_StartThenStopDeliversNothing :
    (upcoming [.cmdStart, .cmdStop]).agenda = .cmdStart :: .cmdStop :: [] ∧ (upcoming [.cmdStart, .cmdStop]).Inv ∧
    (upcoming [.cmdStart, .cmdStop]).armed = false := ⟨rfl, upcoming_inv _, rfl⟩

/-- Armed, suspended, one byte too long, and just fitting. -/
theorem witness_LoadWritesImageOrRefuses :
    let s := upcoming [.cmdLoad 0xFFE [0xAA]]
    let u := upcoming [.cmdLoad 0xFFE [0xAA, 0xBB]]
    (s.agenda = [.cmdLoad 0xFFE [0xAA]] ∧ s.armed = false ∧ s.phase = .idle ∧ s.mem.wf = true ∧
      (0xFFE : Word).toNat + [(0xAA : Byte)].length ≤ 0xFFF) ∧
    (u.agenda = [.cmdLoad 0xFFE [0xAA, 0xBB]] ∧ u.armed = false ∧ u.phase = .idle ∧
      0xFFF < (0xFFE : Word).toNat + [(0xAA : Byte), 0xBB].length) ∧
    ({ s with armed := true } : State).armed = true ∧ ({ s with phase := .keyPress } : State).phase ≠ .idle := by decide

theorem witness_HostResetSetsPcOnly :
    (upcoming [.cmdReset 0xFFE]).agenda = [.cmdReset 0xFFE] ∧ (upcoming [.cmdReset 0xFFE]).armed = false ∧
    (0xFFE : Word).toNat ≤ 0xFFE ∧ 0xFFE < (0xFFF : Word).toNat ∧
    ({ upcoming [.cmdReset 0xFFE] with armed := true } : State).armed = true := by decide

theorem witness_PowerOnValues :
    (upcoming [.powerOn]).agenda = [.powerOn] ∧ 0xFFF < 0x1000 ∧ ¬ (0x050 ≤ 0xFFF ∧ 0xFFF < 0x0A0) ∧
    ¬ (0x050 ≤ 0x0A0 ∧ 0x0A0 < 0x0A0) := by decide

/-- An execution tick, the end of a key wait, and power-on. -/
theorem witness_RegistersWrittenOnlyByInstructions :
    Holds (step (ready 0x200 0x6A81 [])) (fun t => t.v != State.reset.v) = true ∧
    Holds (step { upcoming [.keyProgress] with phase := .keyRelease, pc := 2, kk := 4 }) (fun t => t.v != State.reset.v) = true ∧
    Holds (step ((upcoming [.powerOn]).setV 0 1)) (fun t => t.v != ((upcoming [.powerOn]).setV 0 1).v) = true := by decide

theorem witness_FlagWrittenOnlyByFlagProducers :
    Holds (exec (.shr 1 0) (State.reset.setV 1 1)) (fun t => t.getV 0xF != (State.reset.setV 1 1).getV 0xF) = true ∧
    Holds (exec (.ldImm 0xF 1) State.reset) (fun t => t.getV 0xF != State.reset.getV 0xF) = true := by decide

theorem witness_StepKeepsInv :
    (upcoming [.cmdStart]).Inv ∧ Holds (step (upcoming [.cmdStart])) (fun t => t.armed) = true := ⟨upcoming_inv _, by decide⟩

end Sys2Proof.Tests
end

section
/-! PROOFS. The family 10_state: what stands in the registers after power-on, and what may write a general register. -/

namespace Sys2Proof.Proofs.RegisterState

open Sys2Proof.Machine

/-! ### Power-on -/

@[simp] theorem getV_reset (x : Nibble) : State.reset.getV x = 0 := by
  simp [State.getV, State.reset]

@[simp] theorem stackAt_reset (k : Fin 16) : State.reset.stackAt k = 0 := by
  simp [State.stackAt, State.reset]

/-- Outside the font an unwritten cell reads as `MEM_POWERON` (R81, log entry 12). -/
theorem powerOnByte_of_not_font {a : Nat} (h : ¬ (Config.fontBase ≤ a ∧ a < Config.fontEnd)) :
    powerOnByte a = Config.memPowerOn :=
  if_neg h

/-- Settles O55: power-on keeps the environment's fields and takes every other from `State.reset`, whose values are evaluated. -/
theorem powerOnValues : Obligations.PowerOnValues := by
  refine ⟨⟨getV_reset, stackAt_reset, by decide⟩, ?_, ?_, ?_⟩
  · intro a _ hfont
    exact powerOnByte_of_not_font hfont
  · decide
  · intro s rest h
    exact ⟨_, step_of_agenda h, rfl⟩

/-- Settles O58: every premise about a pending tick, a key wait, a halt or a live stack entry is false after power-on. -/
theorem invAfterPowerOn : Obligations.InvAfterPowerOn where
  memWf := rfl
  armedRuns := nofun
  haltedIdle _ := rfl
  errCodeIff := by decide
  execPendArmed := nofun
  timerPendArmed := nofun
  waitNoExec _ := rfl
  waitPc hwait := absurd rfl hwait
  pcBound := by decide
  stackBound _ hlive := absurd hlive (Nat.not_lt_zero _)

/-! ### The register file over every event -/

/-- What a delivery does: the timer tick, one execution step, or nothing (R232, R234, R235). -/
theorem deliver_cases {s t : State} (h : s.deliver = .next t) :
    (s.timerPend = true ∧ t = State.timerTick { s with timerPend := false }) ∨
    (s.timerPend = false ∧ s.execPend = true ∧ s.phase = .idle ∧ s.halt = .run ∧
      State.executionStep { s with execPend := false } = .next t) ∨
    (s.timerPend = false ∧ s.execDue = false ∧ t = s) := by
  obtain htimer | htimer := Bool.eq_false_or_eq_true s.timerPend
  · rw [State.deliver_of_timer htimer] at h
    cases h
    exact .inl ⟨htimer, rfl⟩
  · obtain hdue | hdue := Bool.eq_false_or_eq_true s.execDue
    · obtain ⟨⟨hpend, hidle⟩, hrun⟩ : (s.execPend = true ∧ s.phase = .idle) ∧ s.halt = .run := by
        simpa [State.execDue] using hdue
      rw [State.deliver_of_exec htimer hpend hidle hrun] at h
      exact .inr (.inl ⟨htimer, hpend, hidle, hrun, h⟩)
    · rw [State.deliver_of_none htimer hdue] at h
      cases h
      exact .inr (.inr ⟨htimer, hdue, rfl⟩)

section EventsKeepRegisters

variable (s : State)

@[simp] theorem fireExec_v : s.fireExec.v = s.v := by
  unfold State.fireExec
  split <;> rfl

@[simp] theorem fireTimer_v : s.fireTimer.v = s.v := by
  unfold State.fireTimer
  split <;> rfl

@[simp] theorem cmdLoad_v (start : Word) (bytes : List Byte) : (s.cmdLoad start bytes).v = s.v := by
  unfold State.cmdLoad
  split
  · rfl
  · split <;> rfl

@[simp] theorem cmdReset_v (entry : Word) : (s.cmdReset entry).v = s.v := by
  unfold State.cmdReset
  split
  · rfl
  · split <;> rfl

@[simp] theorem cmdStart_v : s.cmdStart.v = s.v := by
  unfold State.cmdStart
  split
  · rfl
  · split <;> rfl

@[simp] theorem cmdStop_v : s.cmdStop.v = s.v := rfl

@[simp] theorem keyLatch_v : s.keyLatch.v = s.v := by
  unfold State.keyLatch
  split <;> rfl

/-- Key-wait progress writes a register only where it completes the wait (R213, R214). -/
theorem keyProgress_v_of_ne_keyRelease (h : s.phase ≠ .keyRelease) : s.keyProgress.v = s.v := by
  unfold State.keyProgress
  split
  · rfl
  · exact keyLatch_v s
  next hphase => exact absurd hphase h

end EventsKeepRegisters

/-- Settles O56: event by event, the register file is the same after it unless it is one of the three the statement names. -/
theorem registersWrittenOnlyByInstructions : Obligations.RegistersWrittenOnlyByInstructions := by
  intro s t e rest hagenda hstep hne
  rw [step_of_agenda hagenda] at hstep
  cases e with
  | deliver =>
    obtain ⟨-, rfl⟩ | ⟨htimer, hpend, hidle, hrun, -⟩ | ⟨-, -, rfl⟩ := deliver_cases hstep
    · exact absurd rfl hne
    · exact .inl ⟨rfl, htimer, hpend, hidle, hrun⟩
    · exact absurd rfl hne
  | keyProgress =>
    cases hstep
    exact .inr (.inl ⟨rfl, by_contra fun hphase => hne (keyProgress_v_of_ne_keyRelease _ hphase)⟩)
  | powerOn => exact .inr (.inr rfl)
  | execFire => cases hstep; exact absurd (fireExec_v _) hne
  | timerFire => cases hstep; exact absurd (fireTimer_v _) hne
  | keys levels => cases hstep; exact absurd rfl hne
  | cmdLoad start bytes => cases hstep; exact absurd (cmdLoad_v _ start bytes) hne
  | cmdReset entry => cases hstep; exact absurd (cmdReset_v _ entry) hne
  | cmdStart => cases hstep; exact absurd (cmdStart_v _) hne
  | cmdStop => cases hstep; exact absurd (cmdStop_v _) hne

/-! ### The flag register over every instruction -/

/-- A register write that changes `Vr` is a write of `Vr`. -/
theorem eq_of_getV_setV_ne {s : State} {x r : Nibble} {b : Byte} (h : (s.setV x b).getV r ≠ s.getV r) : x = r :=
  by_contra fun hx => h (State.getV_setV_ne s x r b (Ne.symm hx))

/-- `LD Vx, [I]` leaves the registers above `Vx` alone, whether or not it raises (R195, R86). -/
theorem exec_loadRegs_getV_of_lt {x r : Nibble} {s t : State} (h : exec (.loadRegs x) s = .next t)
    (hr : x.toNat < r.toNat) : t.getV r = s.getV r := by
  have hx := x.isLt
  by_cases hfit : s.i.toNat + (0 + (x.toNat + 1)) ≤ Config.memSize
  · obtain ⟨u, hload, -, hregs⟩ := State.loadRegsFrom_of_le (s := s) (k := 0) (n := x.toNat + 1) (by omega) hfit
    simp only [exec, execLoadRegs, hload, answer] at h
    cases h
    exact (hregs r).trans (if_neg (by omega))
  · obtain ⟨u, hload, -, hregs⟩ := State.loadRegsFrom_of_gt (s := s) (i0 := s.i) (k := 0) (n := x.toNat + 1)
      (by omega) (by omega) (by omega) (.inr rfl)
    simp only [exec, execLoadRegs, hload, answer] at h
    cases h
    exact (hregs r).trans (if_neg (by omega))

@[simp] theorem skipIf_getV (s : State) (c : Bool) (r : Nibble) : (s.skipIf c).getV r = s.getV r := by
  cases c <;> rfl

/-- Settles O57: an instruction outside the statement's list writes no register, or one register, which is then `VF`. -/
theorem flagWrittenOnlyByFlagProducers : Obligations.FlagWrittenOnlyByFlagProducers := by
  intro i s t h hne
  cases i with
  | addReg x y | sub x y | subn x y | shr x y | shl x y => exact .inl ⟨x, y, by simp⟩
  | drw x y n => exact .inr (.inl ⟨x, y, n, rfl⟩)
  | ldImm x nn | addImm x nn | rnd x nn =>
    cases h
    obtain rfl := eq_of_getV_setV_ne hne
    exact .inr (.inr (.inl ⟨nn, by simp⟩))
  | ldReg x y | orReg x y | andReg x y | xorReg x y =>
    cases h
    obtain rfl := eq_of_getV_setV_ne hne
    exact .inr (.inr (.inr (.inl ⟨y, by simp⟩)))
  | ldVxDt x =>
    cases h
    obtain rfl := eq_of_getV_setV_ne hne
    simp
  | loadRegs x =>
    have hx : ¬ x.toNat < 15 := fun hlt => hne (exec_loadRegs_getV_of_lt h hlt)
    obtain rfl : x = 0xF := BitVec.eq_of_toNat_eq (by have := x.isLt; simp; omega)
    simp
  | seImm | sneImm | seReg | sneReg | skp | sknp => cases h; exact absurd (skipIf_getV s _ _) hne
  | call nnn => obtain ⟨_, rfl⟩ | ⟨_, rfl⟩ := exec_call_cases h <;> exact absurd rfl hne
  | ret => obtain ⟨_, rfl⟩ | ⟨_, rfl⟩ := exec_ret_cases h <;> exact absurd rfl hne
  | jpV0 nnn => obtain ⟨_, rfl⟩ | ⟨_, rfl⟩ := exec_jpV0_cases h <;> exact absurd rfl hne
  | ldB x => obtain ⟨_, _, ⟨_, rfl⟩ | ⟨_, rfl⟩⟩ := exec_ldB_cases h <;> exact absurd rfl hne
  | storeRegs x => obtain ⟨_, _, ⟨_, rfl⟩ | ⟨_, rfl⟩⟩ := exec_storeRegs_cases h <;> exact absurd rfl hne
  | cls | jp | ldI | ldVxK | ldDtVx | ldStVx | addI | ldF => cases h; exact absurd rfl hne

end Sys2Proof.Proofs.RegisterState
end

section
/-! PROOFS. The family 20_memory: what a write and a block write leave to be read, and which instructions write memory. -/

namespace Sys2Proof.Proofs.MemoryAccess

open Sys2Proof.Machine

/-- Settles O36: the laws of one write, put together. -/
theorem readAfterWriteGivesByte : Obligations.ReadAfterWriteGivesByte := by
  intro m a b hwf ha
  exact ⟨Memory.read_write_same a b hwf, fun a' hne => Memory.read_write_ne m b hne, Memory.wf_write b hwf ha⟩

/-! ### What writes memory -/

@[simp] theorem skipIf_mem (s : State) (c : Bool) : (s.skipIf c).mem = s.mem := by
  cases c <;> rfl

/-- Settles O37: instruction by instruction; in every outcome of the others, the raise of an error included, memory is the old one. -/
theorem onlyStoresChangeMemory : Obligations.OnlyStoresChangeMemory := by
  intro i s t hldB hstore h
  cases i with
  | ldB x => exact absurd rfl (hldB x)
  | storeRegs x => exact absurd rfl (hstore x)
  | call nnn => obtain ⟨_, rfl⟩ | ⟨_, rfl⟩ := exec_call_cases h <;> rfl
  | ret => obtain ⟨_, rfl⟩ | ⟨_, rfl⟩ := exec_ret_cases h <;> rfl
  | jpV0 nnn => obtain ⟨_, rfl⟩ | ⟨_, rfl⟩ := exec_jpV0_cases h <;> rfl
  | drw x y n => obtain ⟨_, rfl⟩ | ⟨_, _, _, _, rfl⟩ | ⟨_, _, rfl⟩ := exec_drw_cases h <;> rfl
  | loadRegs x => obtain ⟨_, ⟨_, rfl⟩ | ⟨_, rfl⟩⟩ := exec_loadRegs_cases h <;> rfl
  | seImm | sneImm | seReg | sneReg | skp | sknp => cases h; exact skipIf_mem s _
  | _ => cases h; rfl

/-! ### The block store and the next fetch -/

@[simp] theorem regsUpTo_length (s : State) (x : Nibble) : (s.regsUpTo x).length = x.toNat + 1 := by
  simp [State.regsUpTo]

@[simp] theorem regsUpTo_getElem (s : State) (x : Nibble) {k : Nat} (hk : k < (s.regsUpTo x).length) :
    (s.regsUpTo x)[k] = s.getV (BitVec.ofNat 4 k) := by
  simp [State.regsUpTo]

/-- `LD [I], Vx` with the whole block in range writes `V0` to `Vx` and moves `I` past them (R194, R196). -/
theorem exec_storeRegs_of_lt {x : Nibble} {s : State} (h : s.i.toNat + x.toNat < Config.memSize) :
    exec (.storeRegs x) s = .next
      { s with mem := s.mem.writeList s.i.toNat (s.regsUpTo x), i := s.i + BitVec.ofNat 16 (x.toNat + 1) } := by
  have hfit : s.i.toNat + (s.regsUpTo x).length ≤ Config.memSize := by rw [regsUpTo_length]; omega
  simp only [exec, execStoreRegs, State.memWriteList_of_le s hfit, answer]

/-- The cell of the block that belongs to `Vk` reads as `Vk` (R194). -/
theorem read_writeList_regsUpTo {x : Nibble} {s : State} {a k : Nat} (hwf : s.mem.wf = true)
    (h : a + x.toNat < Config.memSize) (hk : k ≤ x.toNat) :
    (s.mem.writeList a (s.regsUpTo x)).read (a + k) = s.getV (BitVec.ofNat 4 k) := by
  have hlen := regsUpTo_length s x
  rw [Memory.read_writeList_inside hwf (by omega) (by omega), regsUpTo_getElem]

/-- Settles O35: the store leaves `PC` alone, so the fetch reads the cells at `I` and `I + 1`, which hold `V0` and `V1`. -/
theorem storeSeenByNextFetch : Obligations.StoreSeenByNextFetch := by
  intro x s hwf hpc hx hrange
  have hlt : s.i.toNat + x.toNat < Config.memSize := Nat.lt_succ_of_le hrange
  have hv0 : (s.mem.writeList s.i.toNat (s.regsUpTo x)).read s.i.toNat = s.getV 0 :=
    read_writeList_regsUpTo hwf hlt (Nat.zero_le _)
  have hv1 : (s.mem.writeList s.i.toNat (s.regsUpTo x)).read (s.i.toNat + 1) = s.getV 1 :=
    read_writeList_regsUpTo hwf hlt hx
  refine ⟨_, exec_storeRegs_of_lt hlt, (State.fetchOpcode_of_le _ ?_).trans ?_⟩
  · have hlast : Config.lastEntry = 0xFFE := rfl
    simp only [← hpc]
    omega
  · simp only [← hpc, hv0, hv1]

/-! ### The host's load command -/

section HostLoad

variable (s : State) {start : Word} {bytes : List Byte}

/-- While armed or suspended the load is refused (R82, log entry 8). -/
theorem cmdLoad_of_busy (h : s.armed = true ∨ s.phase ≠ .idle) :
    s.cmdLoad start bytes = { s with cmdStatus := .refused } :=
  if_pos h

/-- An image that reaches past the source's bound is not loaded (R82, R83). -/
theorem cmdLoad_of_gt (harmed : s.armed = false) (hidle : s.phase = .idle) (h : 0xFFF < start.toNat + bytes.length) :
    s.cmdLoad start bytes = { s with cmdStatus := .loadTooLarge } := by
  rw [State.cmdLoad, if_neg (by simp [harmed, hidle]), if_pos h]

/-- An image within the bound is written at ascending addresses (R82). -/
theorem cmdLoad_of_le (harmed : s.armed = false) (hidle : s.phase = .idle) (h : start.toNat + bytes.length ≤ 0xFFF) :
    s.cmdLoad start bytes = { s with mem := s.mem.writeList start.toNat bytes, cmdStatus := .ok } := by
  rw [State.cmdLoad, if_neg (by simp [harmed, hidle]), if_neg (Nat.not_lt.mpr h)]

end HostLoad

/-- A settled load command is the next step. -/
theorem step_of_cmdLoad {s : State} {rest : List Event} {start : Word} {bytes : List Byte}
    (h : s.agenda = .cmdLoad start bytes :: rest) :
    step s = .next (State.cmdLoad { s with agenda := rest } start bytes) :=
  step_of_agenda h

/-- Settles O53: the three outcomes of the command; of the accepted one, what a block write leaves to be read inside and outside. -/
theorem loadWritesImageOrRefuses : Obligations.LoadWritesImageOrRefuses := by
  intro s rest start bytes hagenda
  rw [step_of_cmdLoad hagenda]
  refine ⟨?_, ?_, ?_⟩
  · intro hbusy
    rw [cmdLoad_of_busy { s with agenda := rest } hbusy]
  · intro harmed hidle hlarge
    rw [cmdLoad_of_gt { s with agenda := rest } harmed hidle hlarge]
  · intro harmed hidle hfits hwf
    rw [cmdLoad_of_le { s with agenda := rest } harmed hidle hfits]
    refine ⟨_, rfl, rfl, ?_, ?_⟩
    · intro k hk
      have hmem : start.toNat + bytes.length ≤ Config.memSize := hfits.trans (by decide)
      rw [List.getD_eq_getElem _ _ hk]
      exact Memory.read_writeList_inside hwf hmem hk
    · intro a hout
      exact Memory.read_writeList_outside s.mem bytes hout

end Sys2Proof.Proofs.MemoryAccess
end

section
/-! PROOFS. The family 30_encoding: the decoder and the encoder undo each other, and the opcodes that decode are those of the map. -/

namespace Sys2Proof.Proofs.Encoding

/-! ### Decode after encode -/

/-- Instruction by instruction: the fields of the assembled word are the operands, and the fixed ones select the decoder's branch. -/
@[simp] theorem decode_encode (i : Instr) : decode (encode i) = some i := by
  cases i with
  | cls | ret => decide
  | jp | call | ldI | jpV0 => simp [encode, decode]
  | seImm | sneImm | ldImm | addImm | rnd => simp [encode, decode]
  | seReg | sneReg | drw => simp [encode, decode]
  | ldReg | orReg | andReg | xorReg | addReg | sub | shr | subn | shl => simp [encode, decode, decodeFamily8]
  | skp | sknp => simp [encode, decode, decodeFamilyE]
  | ldVxDt | ldVxK | ldDtVx | ldStVx | addI | ldF | ldB | storeRegs | loadRegs => simp [encode, decode, decodeFamilyF]

/-- The bytes of a legal opcode decode as the opcode does, and the bytes after them are left. -/
theorem decodeBytes_high_low {op : Word} {i : Instr} (h : decode op = some i) (rest : List Byte) :
    decodeBytes (opcodeHigh op :: opcodeLow op :: rest) = .ok (i, rest) := by
  simp only [decodeBytes, opcodeOfBytes_high_low, h]

/-- Settles O2: on opcodes; the two bytes of an opcode, put together, are the opcode. -/
theorem decodeEncodeRoundTrip : Obligations.DecodeEncodeRoundTrip :=
  fun i => ⟨decode_encode i, decodeBytes_high_low (decode_encode i)⟩

/-! ### Encode after decode -/

section FieldsKnown

variable {op : Word} {n1 n : Nibble} {nn : Byte}

theorem encodeNNN_of_n1 (h1 : Opcode.n1 op = n1) : encodeNNN n1 (Opcode.nnn op) = op :=
  h1 ▸ encodeNNN_fields op

theorem encodeXNN_of_n1 (h1 : Opcode.n1 op = n1) : encodeXNN n1 (Opcode.x op) (Opcode.nn op) = op :=
  h1 ▸ encodeXNN_fields op

theorem encodeXNN_of_n1_nn (h1 : Opcode.n1 op = n1) (h : Opcode.nn op = nn) : encodeXNN n1 (Opcode.x op) nn = op :=
  h ▸ encodeXNN_of_n1 h1

theorem encodeXYN_of_n1 (h1 : Opcode.n1 op = n1) :
    encodeXYN n1 (Opcode.x op) (Opcode.y op) (Opcode.n op) = op :=
  h1 ▸ encodeXYN_fields op

theorem encodeXYN_of_n1_n (h1 : Opcode.n1 op = n1) (h : Opcode.n op = n) :
    encodeXYN n1 (Opcode.x op) (Opcode.y op) n = op :=
  h ▸ encodeXYN_of_n1 h1

end FieldsKnown

section DecodedFamilies

variable {op : Word} {i : Instr}

theorem encode_of_decodeFamily0 (h1 : Opcode.n1 op = 0) (h : decodeFamily0 op = some i) : encode i = op := by
  have hop := encodeNNN_of_n1 h1
  unfold decodeFamily0 at h
  split at h <;> cases h
  case h_1 hnnn => rw [← hop, hnnn]; decide
  case h_2 hnnn => rw [← hop, hnnn]; decide

theorem encode_of_decodeFamily8 (h1 : Opcode.n1 op = 8) (h : decodeFamily8 op = some i) : encode i = op := by
  unfold decodeFamily8 at h
  split at h <;> cases h <;> exact encodeXYN_of_n1_n h1 ‹_›

theorem encode_of_decodeFamilyE (h1 : Opcode.n1 op = 0xE) (h : decodeFamilyE op = some i) : encode i = op := by
  unfold decodeFamilyE at h
  split at h <;> cases h <;> exact encodeXNN_of_n1_nn h1 ‹_›

theorem encode_of_decodeFamilyF (h1 : Opcode.n1 op = 0xF) (h : decodeFamilyF op = some i) : encode i = op := by
  unfold decodeFamilyF at h
  split at h <;> cases h <;> exact encodeXNN_of_n1_nn h1 ‹_›

end DecodedFamilies

/-- Branch by branch of the decoder: the fields it kept, beside the ones it checked, are all the fields of the opcode (R107). -/
theorem encode_of_decode {op : Word} {i : Instr} (h : decode op = some i) : encode i = op := by
  unfold decode at h
  split at h
  next h1 => exact encode_of_decodeFamily0 h1 h
  next h1 => cases h; exact encodeNNN_of_n1 h1
  next h1 => cases h; exact encodeNNN_of_n1 h1
  next h1 => cases h; exact encodeXNN_of_n1 h1
  next h1 => cases h; exact encodeXNN_of_n1 h1
  next h1 =>
    split at h <;> cases h
    next hn => exact encodeXYN_of_n1_n h1 hn
  next h1 => cases h; exact encodeXNN_of_n1 h1
  next h1 => cases h; exact encodeXNN_of_n1 h1
  next h1 => exact encode_of_decodeFamily8 h1 h
  next h1 =>
    split at h <;> cases h
    next hn => exact encodeXYN_of_n1_n h1 hn
  next h1 => cases h; exact encodeNNN_of_n1 h1
  next h1 => cases h; exact encodeNNN_of_n1 h1
  next h1 => cases h; exact encodeXNN_of_n1 h1
  next h1 => cases h; exact encodeXYN_of_n1 h1
  next h1 => exact encode_of_decodeFamilyE h1 h
  next h1 => exact encode_of_decodeFamilyF h1 h
  next => cases h

/-- Settles O3: no branch of the decoder drops a field, the unused `y` of `SHR` and `SHL` included (R116). -/
theorem encodeDecodeRoundTrip : Obligations.EncodeDecodeRoundTrip :=
  fun _ _ => encode_of_decode

/-! ### The rows of the opcode map -/

/-- What two rows ask of the bits both masks cover is the same, when one opcode selects both. -/
theorem mask_inter_of_selects {r q : OpcodeRow} {op : Word} (hr : r.selects op = true) (hq : q.selects op = true) :
    r.code &&& q.mask = q.code &&& r.mask := by
  rw [OpcodeRow.selects, beq_iff_eq] at hr hq
  rw [← hr, ← hq, BitVec.and_assoc, BitVec.and_assoc, BitVec.and_comm r.mask]

/-- Two different rows of the map ask different values of the bits both masks cover (R112). -/
theorem opcodeMap_disjoint : ∀ r ∈ opcodeMap, ∀ q ∈ opcodeMap, r.code &&& q.mask = q.code &&& r.mask → r = q := by
  decide

/-- The family `EncodedWord`, put together: every instruction's encoding selects the instruction's own row. -/
theorem encodedWord (i : Instr) : Laws.EncodedWord.Statement i := by
  open Laws.EncodedWord in
  cases i
  exacts [cls, ret, jp _, call _, seImm _ _, sneImm _ _, seReg _ _, ldImm _ _, addImm _ _, ldReg _ _, orReg _ _, andReg _ _,
    xorReg _ _, addReg _ _, sub _ _, shr _ _, subn _ _, shl _ _, sneReg _ _, ldI _, jpV0 _, rnd _ _, drw _ _ _, skp _, sknp _,
    ldVxDt _, ldVxK _, ldDtVx _, ldStVx _, addI _, ldF _, ldB _, storeRegs _, loadRegs _]

/-! ### The required sub-fields, family by family -/

/-- The families that have no illegal encoding (R113). -/
def freeFamilies : List Nibble := [0x1, 0x2, 0x3, 0x4, 0x6, 0x7, 0xA, 0xB, 0xC, 0xD]

/-- The families by the sub-field each requires (R112, R113): `nnn` in 0, `n` in 5, 9 and 8, `nn` in E and F, none in the rest. -/
theorem family_cases (k : Nibble) : k = 0 ∨ (k = 5 ∨ k = 9) ∨ k = 8 ∨ k = 0xE ∨ k = 0xF ∨ k ∈ freeFamilies := by
  revert k; decide

section WellFormedByFamily

variable {op : Word}

theorem wellFormedOpcode_family0 (h1 : Opcode.n1 op = 0) :
    wellFormedOpcode op = (Opcode.nnn op == 0x0E0 || Opcode.nnn op == 0x0EE) := by
  simp [wellFormedOpcode, ← toNat_n1, ← toNat_nnn, h1, ← BitVec.toNat_inj, beq_eq_decide]

theorem wellFormedOpcode_family5_9 (h1 : Opcode.n1 op = 5 ∨ Opcode.n1 op = 9) :
    wellFormedOpcode op = (Opcode.n op == 0) := by
  rcases h1 with h1 | h1 <;>
    simp [wellFormedOpcode, ← toNat_n1, ← toNat_n, h1, ← BitVec.toNat_inj, beq_eq_decide]

theorem wellFormedOpcode_family8 (h1 : Opcode.n1 op = 8) :
    wellFormedOpcode op = (decide (Opcode.n op ≤ 7) || Opcode.n op == 0xE) := by
  simp [wellFormedOpcode, ← toNat_n1, ← toNat_n, h1, ← BitVec.toNat_inj, beq_eq_decide, BitVec.le_def]

theorem wellFormedOpcode_familyE (h1 : Opcode.n1 op = 0xE) :
    wellFormedOpcode op = (Opcode.nn op == 0x9E || Opcode.nn op == 0xA1) := by
  simp [wellFormedOpcode, ← toNat_n1, ← toNat_nn, h1, ← BitVec.toNat_inj, beq_eq_decide]

theorem wellFormedOpcode_familyF (h1 : Opcode.n1 op = 0xF) :
    wellFormedOpcode op = decide (Opcode.nn op ∈ [0x07, 0x0A, 0x15, 0x18, 0x1E, 0x29, 0x33, 0x55, 0x65]) := by
  simp [wellFormedOpcode, ← toNat_n1, ← toNat_nn, h1, ← BitVec.toNat_inj]

theorem wellFormedOpcode_free (h1 : Opcode.n1 op ∈ freeFamilies) : wellFormedOpcode op = true := by
  simp only [freeFamilies, List.mem_cons, List.not_mem_nil, or_false] at h1
  rcases h1 with h1 | h1 | h1 | h1 | h1 | h1 | h1 | h1 | h1 | h1 <;> simp [wellFormedOpcode, ← toNat_n1, h1]

end WellFormedByFamily

/-- Whether an opcode is well formed depends on its family and on the sub-field the family requires, and on nothing else. -/
theorem wellFormedOpcode_congr {op c : Word} (h1 : Opcode.n1 op = Opcode.n1 c)
    (hnnn : Opcode.n1 c = 0 → Opcode.nnn op = Opcode.nnn c)
    (hn : (Opcode.n1 c = 5 ∨ Opcode.n1 c = 9) ∨ Opcode.n1 c = 8 → Opcode.n op = Opcode.n c)
    (hnn : Opcode.n1 c = 0xE ∨ Opcode.n1 c = 0xF → Opcode.nn op = Opcode.nn c) :
    wellFormedOpcode op = wellFormedOpcode c := by
  rcases family_cases (Opcode.n1 c) with hc | hc | hc | hc | hc | hc
  · rw [wellFormedOpcode_family0 (h1.trans hc), wellFormedOpcode_family0 hc, hnnn hc]
  · rw [wellFormedOpcode_family5_9 (h1 ▸ hc), wellFormedOpcode_family5_9 hc, hn (.inl hc)]
  · rw [wellFormedOpcode_family8 (h1.trans hc), wellFormedOpcode_family8 hc, hn (.inr hc)]
  · rw [wellFormedOpcode_familyE (h1.trans hc), wellFormedOpcode_familyE hc, hnn (.inl hc)]
  · rw [wellFormedOpcode_familyF (h1.trans hc), wellFormedOpcode_familyF hc, hnn (.inr hc)]
  · rw [wellFormedOpcode_free (h1 ▸ hc), wellFormedOpcode_free hc]

/-! ### An opcode that selects a row is well formed -/

/-- A field all of whose bits a row's mask covers is, in an opcode that selects the row, the field of the row's code. -/
theorem extractLsb'_of_selects {r : OpcodeRow} {op : Word} {i k : Nat} (h : r.selects op = true)
    (hm : r.mask.extractLsb' i k = BitVec.allOnes k) : op.extractLsb' i k = r.code.extractLsb' i k := by
  rw [OpcodeRow.selects, beq_iff_eq] at h
  rw [← h, BitVec.extractLsb'_and, hm, BitVec.and_allOnes]

/-- Every row of the map covers the family and the sub-field the family requires, and its code is well formed. -/
theorem opcodeMap_covers_required : ∀ r ∈ opcodeMap,
    Opcode.n1 r.mask = BitVec.allOnes 4 ∧ (Opcode.n1 r.code = 0 → Opcode.nnn r.mask = BitVec.allOnes 12) ∧
    ((Opcode.n1 r.code = 5 ∨ Opcode.n1 r.code = 9) ∨ Opcode.n1 r.code = 8 → Opcode.n r.mask = BitVec.allOnes 4) ∧
    (Opcode.n1 r.code = 0xE ∨ Opcode.n1 r.code = 0xF → Opcode.nn r.mask = BitVec.allOnes 8) ∧
    wellFormedOpcode r.code = true := by
  decide

/-- The opcode agrees with the row's code, which is well formed, on everything the check looks at. -/
theorem wellFormedOpcode_of_selects {r : OpcodeRow} {op : Word} (hr : r ∈ opcodeMap) (h : r.selects op = true) :
    wellFormedOpcode op = true := by
  obtain ⟨h1, hnnn, hn, hnn, hcode⟩ := opcodeMap_covers_required r hr
  rw [← hcode]
  exact wellFormedOpcode_congr (extractLsb'_of_selects h h1) (fun hc => extractLsb'_of_selects h (hnnn hc))
    (fun hc => extractLsb'_of_selects h (hn hc)) (fun hc => extractLsb'_of_selects h (hnn hc))

/-! ### A well-formed opcode decodes -/

section DecodeByFamily

variable {op : Word}

theorem isSome_decodeFamily0 (h : Opcode.nnn op = 0x0E0 ∨ Opcode.nnn op = 0x0EE) : (decodeFamily0 op).isSome = true := by
  rcases h with h | h <;> simp [decodeFamily0, h]

theorem isSome_decodeFamily8 (h : Opcode.n op ≤ 7 ∨ Opcode.n op = 0xE) : (decodeFamily8 op).isSome = true := by
  have hn : Opcode.n op ∈ ([0, 1, 2, 3, 4, 5, 6, 7, 0xE] : List Nibble) := by
    revert h; generalize Opcode.n op = n; revert n; decide
  simp only [List.mem_cons, List.not_mem_nil, or_false] at hn
  rcases hn with h | h | h | h | h | h | h | h | h <;> simp [decodeFamily8, h]

theorem isSome_decodeFamilyE (h : Opcode.nn op = 0x9E ∨ Opcode.nn op = 0xA1) : (decodeFamilyE op).isSome = true := by
  rcases h with h | h <;> simp [decodeFamilyE, h]

theorem isSome_decodeFamilyF (h : Opcode.nn op ∈ [0x07, 0x0A, 0x15, 0x18, 0x1E, 0x29, 0x33, 0x55, 0x65]) :
    (decodeFamilyF op).isSome = true := by
  simp only [List.mem_cons, List.not_mem_nil, or_false] at h
  rcases h with h | h | h | h | h | h | h | h | h <;> simp [decodeFamilyF, h]

theorem isSome_decode_free (h1 : Opcode.n1 op ∈ freeFamilies) : (decode op).isSome = true := by
  simp only [freeFamilies, List.mem_cons, List.not_mem_nil, or_false] at h1
  rcases h1 with h1 | h1 | h1 | h1 | h1 | h1 | h1 | h1 | h1 | h1 <;> simp [decode, h1]

end DecodeByFamily

theorem isSome_decode_of_wellFormed {op : Word} (h : wellFormedOpcode op = true) : (decode op).isSome = true := by
  rcases family_cases (Opcode.n1 op) with h1 | h1 | h1 | h1 | h1 | h1
  · rw [wellFormedOpcode_family0 h1] at h
    simpa [decode, h1] using isSome_decodeFamily0 (by simpa using h)
  · rw [wellFormedOpcode_family5_9 h1, beq_iff_eq] at h
    rcases h1 with h1 | h1 <;> simp [decode, h1, h]
  · rw [wellFormedOpcode_family8 h1] at h
    simpa [decode, h1] using isSome_decodeFamily8 (by simpa using h)
  · rw [wellFormedOpcode_familyE h1] at h
    simpa [decode, h1] using isSome_decodeFamilyE (by simpa using h)
  · rw [wellFormedOpcode_familyF h1] at h
    simpa [decode, h1] using isSome_decodeFamilyF (by simpa using h)
  · exact isSome_decode_free h1

/-! ### Legality -/

/-- The opcode selects the row of the instruction it decodes to, because it is that instruction's encoding. -/
theorem opcodeRow_of_decode {op : Word} {i : Instr} (h : decode op = some i) :
    opcodeRow i ∈ opcodeMap ∧ (opcodeRow i).selects op = true := by
  obtain ⟨hselects, hmem⟩ := encodedWord i
  exact ⟨hmem, encode_of_decode h ▸ hselects⟩

/-- Settles O5: an opcode that decodes selects its instruction's row, one that selects a row is well formed, and one that is well
formed decodes; no two rows of the map meet. -/
theorem legalOpcodesSelectExactlyOneRow : Obligations.LegalOpcodesSelectExactlyOneRow := by
  intro op
  have hrow : (decode op).isSome = true → ∃ r ∈ opcodeMap, r.selects op = true := by
    intro h
    obtain ⟨i, hi⟩ := Option.isSome_iff_exists.mp h
    exact ⟨opcodeRow i, opcodeRow_of_decode hi⟩
  have hwf : (∃ r ∈ opcodeMap, r.selects op = true) → wellFormedOpcode op = true :=
    fun ⟨_, hr, h⟩ => wellFormedOpcode_of_selects hr h
  exact ⟨⟨hrow, isSome_decode_of_wellFormed ∘ hwf⟩,
    fun r hr q hq h h' => opcodeMap_disjoint r hr q hq (mask_inter_of_selects h h'),
    fun _ => opcodeRow_of_decode, ⟨hwf ∘ hrow, isSome_decode_of_wellFormed⟩⟩

/-! ### Fixed words and the nibbles -/

/-- Settles O1: the decoder evaluated on the eighteen words. -/
theorem opcodeMapWordsDecode : Obligations.OpcodeMapWordsDecode := by
  unfold Obligations.OpcodeMapWordsDecode
  decide

/-- Settles O4: each field is a quotient and remainder of the opcode's number. -/
theorem nibblesReconstructOpcode : Obligations.NibblesReconstructOpcode := by
  intro op
  rw [toNat_n1, toNat_x, toNat_y, toNat_n, toNat_nn, toNat_nnn]
  omega

end Sys2Proof.Proofs.Encoding
end

section
/-! PROOFS. The family 40_fetch_decode: what a delivered execution tick runs, the fetch that does not fit, the halt check. -/

namespace Sys2Proof.Proofs.FetchDecode

open Sys2Proof.Machine Sys2Proof.Claims

/-! ### A delivered execution tick -/

/-- One execution step on an opcode that decodes, whatever its meaning answers (R130). -/
theorem executionStep_of_decode {s : State} {op : Word} {i : Instr} (hfetch : s.fetchOpcode = some op)
    (hdecode : decode op = some i) : s.executionStep = thenRetire (exec i (s.fetched op)) := by
  simp only [State.executionStep, hfetch, hdecode]
  rfl

section ExecutionTick

variable {s : State} {rest : List Event}

/-- The step is one execution step from the state with the event and the tick taken off (R232). -/
theorem step_of_execTickNext (h : ExecTickNext s rest) : step s = (begun s rest).executionStep := by
  obtain ⟨hagenda, hpend, htimer, hidle, hrun⟩ := h
  rw [step_of_agenda hagenda]
  exact State.deliver_of_exec (s := { s with agenda := rest }) htimer hpend hidle hrun

theorem step_of_decode {op : Word} {i : Instr} (h : ExecTickNext s rest) (hfetch : (begun s rest).fetchOpcode = some op)
    (hdecode : decode op = some i) : step s = thenRetire (exec i ((begun s rest).fetched op)) :=
  (step_of_execTickNext h).trans (executionStep_of_decode hfetch hdecode)

end ExecutionTick

/-- Settles O6: taking the tick off leaves `PC` and memory alone, so the fetch reads the two bytes the statement names. -/
theorem stepRunsDecodedInstruction : Obligations.StepRunsDecodedInstruction := by
  rintro s rest _ _ i htick hpc rfl rfl hdecode
  exact step_of_decode htick (State.fetchOpcode_of_le (begun s rest) hpc) hdecode

/-- Settles O8: the step is the fetch fault, whose raise is read off field by field. -/
theorem fetchBeyondMemoryHalts : Obligations.FetchBeyondMemoryHalts := by
  intro s rest htick hpc
  have hfetch : (begun s rest).fetchOpcode = none := State.fetchOpcode_of_gt _ hpc
  rw [step_of_execTickNext htick, State.executionStep_of_fault hfetch]
  rfl

/-! ### The placed instruction -/

/-- The table word is decoded from its two bytes, which put together are the word's opcode. -/
theorem decode_tableOpcode {nbits w : Nat} {i : Instr} (h : decodeTableWord nbits w = some i) :
    decode (tableOpcode nbits w) = some i := by
  simp only [decodeTableWord, decodeBytes, opcodeOfBytes_high_low] at h
  cases hd : decode (tableOpcode nbits w) with
  | none => simp [hd] at h
  | some j => simpa [hd] using h

/-- Two bytes fit where an instruction is placed (R78, R292). -/
theorem placeAddress_le_lastEntry (s : State) : s.placeAddress.toNat ≤ Config.lastEntry := by
  unfold State.placeAddress
  split
  · assumption
  · decide

/-- The poised machine is about to take an execution tick (log entry 3). -/
theorem execTickNext_poised (s : State) (op : Word) : ExecTickNext (s.poised op) s.agenda :=
  ⟨rfl, rfl, rfl, rfl, rfl⟩

/-- After placing `op` in canonical memory its two bytes stand at `PC`, the high byte first (R76). -/
theorem read_poised {s : State} (op : Word) (hwf : s.mem.wf = true) :
    (s.poised op).mem.read (s.poised op).pc.toNat = opcodeHigh op ∧
    (s.poised op).mem.read ((s.poised op).pc.toNat + 1) = opcodeLow op := by
  have hfit : s.placeAddress.toNat + [opcodeHigh op, opcodeLow op].length ≤ Config.memSize :=
    Nat.add_le_add_right (placeAddress_le_lastEntry s) 2
  exact ⟨Memory.read_writeList_inside hwf hfit Nat.zero_lt_two, Memory.read_writeList_inside hwf hfit Nat.one_lt_two⟩

/-- Settles O7: `stepRunsDecodedInstruction` of the poised machine, the placed bytes being those of the opcode. -/
theorem placedInstructionRunsNext : Obligations.PlacedInstructionRunsNext := by
  intro s w i hwf hdecode
  obtain ⟨hhigh, hlow⟩ := read_poised (tableOpcode 16 w) hwf
  have hop := opcodeOfBytes_high_low (tableOpcode 16 w)
  have hstep := stepRunsDecodedInstruction _ _ _ _ i (execTickNext_poised s _) (placeAddress_le_lastEntry s) hhigh hlow
    (hop.symm ▸ decode_tableOpcode hdecode)
  rw [hop] at hstep
  exact hstep

/-! ### The halt check -/

/-- Settles O10: execute keeps the latch `PC0`, so the halt check compares `PC` with its value before the fetch. -/
theorem haltCheckComparesPcWithFetchAddress : Obligations.HaltCheckComparesPcWithFetchAddress := by
  intro s rest op i t htick hfetch hdecode hexec hrun hidle
  have hpc0 : t.pc0 = s.pc := (exec_frame hexec).1
  rw [step_of_decode htick hfetch hdecode, hexec]
  obtain ⟨-, -, hself, hretire⟩ | ⟨hgoes, hretire⟩ := State.retire_cases t
  · rw [thenRetire, hretire, if_pos (hself.trans hpc0)]
    rfl
  · have hne : t.pc ≠ s.pc := fun heq => hgoes ⟨hrun, hidle, heq.trans hpc0.symm⟩
    rw [thenRetire, hretire, if_neg hne]

/-- A skip goes to the next instruction or to the one after it (R160). -/
theorem skipIf_pc_cases (s : State) (c : Bool) : (s.skipIf c).pc = s.pc ∨ (s.skipIf c).pc = s.pc + 2 := by
  cases c
  · exact .inl rfl
  · exact .inr rfl

/-- Only the skips and the four transfers write `PC`; the raise of an error leaves it alone (R36, R258). -/
theorem exec_pc_of_not_transfer {i : Instr} {s t : State} (hjp : ∀ nnn, i ≠ .jp nnn) (hjpV0 : ∀ nnn, i ≠ .jpV0 nnn)
    (hcall : ∀ nnn, i ≠ .call nnn) (hret : i ≠ .ret) (h : exec i s = .next t) : t.pc = s.pc ∨ t.pc = s.pc + 2 := by
  cases i with
  | jp nnn => exact absurd rfl (hjp nnn)
  | jpV0 nnn => exact absurd rfl (hjpV0 nnn)
  | call nnn => exact absurd rfl (hcall nnn)
  | ret => exact absurd rfl hret
  | seImm | sneImm | seReg | sneReg | skp | sknp => cases h; exact skipIf_pc_cases s _
  | drw x y n => obtain ⟨_, rfl⟩ | ⟨_, _, _, _, rfl⟩ | ⟨_, _, rfl⟩ := exec_drw_cases h <;> exact .inl rfl
  | ldB x => obtain ⟨_, _, ⟨_, rfl⟩ | ⟨_, rfl⟩⟩ := exec_ldB_cases h <;> exact .inl rfl
  | storeRegs x => obtain ⟨_, _, ⟨_, rfl⟩ | ⟨_, rfl⟩⟩ := exec_storeRegs_cases h <;> exact .inl rfl
  | loadRegs x => obtain ⟨_, ⟨_, rfl⟩ | ⟨_, rfl⟩⟩ := exec_loadRegs_cases h <;> exact .inl rfl
  | _ => cases h; exact .inl rfl

/-- An instruction run from `HALT = RUN` does not itself leave `HALT_SELF`: that is the halt check's (R139). -/
theorem exec_halt_ne_haltSelf {i : Instr} {s t : State} (h : exec i s = .next t) (hrun : s.halt = .run) :
    t.halt ≠ .haltSelf := by
  obtain ⟨-, -, -, -, -, -, ⟨hhalt, -⟩ | ⟨hhalt, -⟩⟩ := exec_frame h
  · simp [hhalt, hrun]
  · simp [hhalt]

/-- Settles O11: `PC` is two or four bytes past `PC0`, so the halt check finds them different and leaves `HALT` alone. -/
theorem onlyTransfersCanHaltAtSelf : Obligations.OnlyTransfersCanHaltAtSelf := by
  intro i s t hjp hjpV0 hcall hret h
  have hpc := exec_pc_of_not_transfer hjp hjpV0 hcall hret h
  refine ⟨hpc, fun hrun hnext => ?_⟩
  have hpc0 : t.pc0 = s.pc0 := (exec_frame h).1
  obtain ⟨-, -, hself, -⟩ | ⟨-, hretire⟩ := State.retire_cases t
  · rw [hself, hpc0, hnext] at hpc
    bv_omega
  · rw [hretire]
    exact exec_halt_ne_haltSelf h hrun

end Sys2Proof.Proofs.FetchDecode
end

section
/-! PROOFS. The family 41_control_flow: the jumps, `CALL` and `RET` on the bounded stack, and a `RET` after a `CALL`. -/

namespace Sys2Proof.Proofs.ControlFlow

open Sys2Proof.Machine Sys2Proof.Claims

/-- Taking an error leaves the halted state that the statements list field by field (R256). -/
theorem raise_eq_haltedWith (s : State) (e : FatalError) (op : Word) : s.raise e op = haltedWith s e op := rfl

/-! ### The jumps -/

theorem addrOf_eq_ofNat (nnn : Addr) : addrOf nnn = BitVec.ofNat 16 nnn.toNat := (BitVec.ofNat_toNat 16 nnn).symm

/-- Settles O17: the meaning of `JP` zero-extends the immediate. -/
theorem jpSetsPc : Obligations.JpSetsPc := by
  intro nnn s
  rw [← addrOf_eq_ofNat]
  rfl

/-- An address and a byte add up without wrapping modulo 65536, so the range check of R153 sees the whole sum. -/
theorem toNat_indexedTarget (nnn : Addr) (v0 : Byte) : (indexedTarget nnn v0).toNat = nnn.toNat + v0.toNat := by
  have haddr : (addrOf nnn).toNat = nnn.toNat := BitVec.toNat_setWidth_of_le (by decide)
  have hword : (wordOf v0).toNat = v0.toNat := BitVec.toNat_setWidth_of_le (by decide)
  rw [indexedTarget, BitVec.toNat_add, haddr, hword]
  omega

section JumpIndexed

variable {nnn : Addr} {s : State}

theorem exec_jpV0_of_lt (h : (indexedTarget nnn (s.getV 0)).toNat < Config.memSize) :
    exec (.jpV0 nnn) s = .next { s with pc := indexedTarget nnn (s.getV 0) } :=
  if_pos h

theorem exec_jpV0_of_ge (h : Config.memSize ≤ (indexedTarget nnn (s.getV 0)).toNat) :
    exec (.jpV0 nnn) s = .next (s.raise .invalidAddress s.op) :=
  if_neg (Nat.not_lt.mpr h)

end JumpIndexed

/-- Settles O20: the target is the sum itself, and the check compares it with the size of memory. -/
theorem jpV0JumpsOrRaises : Obligations.JpV0JumpsOrRaises := by
  intro nnn s
  have hsum := toNat_indexedTarget nnn (s.getV 0)
  have hsize : Config.memSize = 0xFFF + 1 := rfl
  constructor
  · intro hle
    rw [exec_jpV0_of_lt (by omega), ← hsum, BitVec.ofNat_toNat, BitVec.setWidth_eq]
  · intro hgt
    rw [exec_jpV0_of_ge (by omega), raise_eq_haltedWith]

/-! ### `CALL` and `RET` -/

section CallStack

variable {nnn : Addr} {s : State}

theorem exec_call_of_lt (h : s.sp.val < 16) :
    exec (.call nnn) s =
      .next { s with stack := s.stack.set s.sp.val s.pc h, sp := ⟨s.sp.val + 1, by omega⟩, pc := addrOf nnn } := by
  simp only [exec, execCall, State.push_of_lt s s.pc h]

theorem exec_call_of_full (h : s.sp.val = 16) : exec (.call nnn) s = .next (s.raise .stackOverflow s.op) := by
  simp only [exec, execCall, State.push_of_full s s.pc h]

theorem exec_ret_of_pos (h : 0 < s.sp.val) :
    exec .ret s =
      .next { s with pc := s.stackAt ⟨s.sp.val - 1, by omega⟩, sp := ⟨s.sp.val - 1, by omega⟩ } := by
  simp only [exec, execRet, State.pop_of_pos s h]

theorem exec_ret_of_empty (h : s.sp.val = 0) : exec .ret s = .next (s.raise .stackUnderflow s.op) := by
  simp only [exec, execRet, State.pop_of_empty s h]

end CallStack

/-- Settles O18: the push when an entry is free, the raise when none is; the entry pushed is the one at the old depth. -/
theorem callPushesOrOverflows : Obligations.CallPushesOrOverflows := by
  intro nnn s
  constructor
  · intro hfree
    refine ⟨_, exec_call_of_lt hfree, ?_, rfl, ?_⟩
    · rw [← addrOf_eq_ofNat]
    · intro k
      exact (Vector.getElem_set hfree k.isLt).trans (if_congr eq_comm rfl rfl)
  · intro hfull
    rw [exec_call_of_full hfull, raise_eq_haltedWith]

/-- Settles O19: the pop when an entry is live, the raise when none is. -/
theorem retPopsOrUnderflows : Obligations.RetPopsOrUnderflows := by
  intro s
  constructor
  · intro hlive
    refine ⟨_, exec_ret_of_pos hlive, rfl, Nat.sub_add_cancel hlive, ?_⟩
    intro k hk
    exact congrArg s.stackAt (Fin.ext hk.symm)
  · intro hempty
    rw [exec_ret_of_empty hempty, raise_eq_haltedWith]

/-- Settles O21: the `RET` takes the depth back to the `CALL`'s, and pops the entry there, which is the one pushed. -/
theorem retReturnsAfterCall : Obligations.RetReturnsAfterCall := by
  intro nnn s hfree
  obtain ⟨t, hcall, -, hdeeper, hentry⟩ := (callPushesOrOverflows nnn s).1 hfree
  refine ⟨t, hcall, fun u hstack hsp => ?_⟩
  obtain ⟨w, hret, hframe, hpopped, hpc⟩ := (retPopsOrUnderflows u).1 (by omega)
  have hspBack : w.sp = s.sp := Fin.ext (by omega)
  have hpcBack : w.pc = s.pc :=
    calc w.pc = u.stackAt ⟨s.sp.val, hfree⟩ := hpc _ (congrArg Fin.val hspBack.symm)
      _ = t.stackAt ⟨s.sp.val, hfree⟩ := by rw [State.stackAt, hstack, State.stackAt]
      _ = s.pc := (hentry _).trans (if_pos rfl)
  refine ⟨w, hret, ?_⟩
  rw [← hspBack, ← hpcBack]
  exact hframe

end Sys2Proof.Proofs.ControlFlow
end

section
/-! PROOFS. The family 42_skips: the skip action, and the four skips on registers. -/

namespace Sys2Proof.Proofs.Skips

open Sys2Proof.Machine

/-- The skip action writes nothing but `PC`, and moves it exactly when the condition holds (R160). -/
theorem skipIf_of_iff (s : State) {c : Bool} {p : Prop} [Decidable p] (h : c = true ↔ p) :
    s.skipIf c = { s with pc := if p then s.pc + 2 else s.pc } := by
  unfold State.skipIf
  by_cases hp : p
  · rw [if_pos (h.mpr hp), if_pos hp]
  · rw [if_neg (mt h.mp hp), if_neg hp]

/-- An instruction whose meaning is the skip action on the test of its condition. -/
theorem exec_of_skipIf {i : Instr} {s : State} {c : Bool} {p : Prop} [Decidable p] (hexec : exec i s = .next (s.skipIf c))
    (h : c = true ↔ p) : exec i s = .next { s with pc := if p then s.pc + 2 else s.pc } := by
  rw [hexec, skipIf_of_iff s h]

/-- Settles O22: each of the four is the skip action, on the comparison that decides its condition. -/
theorem registerSkipsAdvancePc : Obligations.RegisterSkipsAdvancePc := by
  intro x y nn s
  refine ⟨?seImm, ?sneImm, ?seReg, ?sneReg⟩
  case seImm | seReg => exact exec_of_skipIf rfl beq_iff_eq
  case sneImm | sneReg => exact exec_of_skipIf rfl bne_iff_ne

end Sys2Proof.Proofs.Skips
end

section
/-! PROOFS. The family 43_alu: the loads, the ALU operations with and without a flag, and `RND`. -/

namespace Sys2Proof.Proofs.Alu

open Sys2Proof.Machine Sys2Proof.Claims

/-! ### One register written -/

/-- The register write of the model is the one the statements describe: `Vx` written, all else kept (R32). -/
theorem wroteReg_setV (s : State) (x : Nibble) (b : Byte) : WroteReg s (s.setV x b) x b :=
  ⟨State.setV_eq s x b, State.getV_setV_same s x b, fun r => State.getV_setV_ne s x r b⟩

/-- An instruction whose meaning is one register write, of a value that the statement writes its own way. -/
theorem exists_wroteReg {i : Instr} {s : State} {x : Nibble} {b result : Byte} (hexec : exec i s = .next (s.setV x b))
    (hresult : b = result) : ∃ t, exec i s = .next t ∧ WroteReg s t x result :=
  ⟨_, hexec, hresult ▸ wroteReg_setV s x b⟩

theorem add_eq_ofNat (a b : Byte) : a + b = BitVec.ofNat 8 ((a.toNat + b.toNat) % 256) := by bv_omega

/-- Settles O24: each of the three is one register write; `ADD` adds modulo 256. -/
theorem loadsAndImmediateAdd : Obligations.LoadsAndImmediateAdd := by
  intro x y nn s
  exact ⟨exists_wroteReg rfl rfl, exists_wroteReg rfl (add_eq_ofNat _ _), exists_wroteReg rfl rfl⟩

/-- Settles O25: each of the three is one register write, of a value whose bits the library gives. -/
theorem bitwiseOpsWriteVx : Obligations.BitwiseOpsWriteVx := by
  intro x y s
  exact ⟨⟨_, _, rfl, wroteReg_setV s x _, fun _ => BitVec.getLsbD_or⟩,
    ⟨_, _, rfl, wroteReg_setV s x _, fun _ => BitVec.getLsbD_and⟩,
    ⟨_, _, rfl, wroteReg_setV s x _, fun _ => BitVec.getLsbD_xor⟩⟩

/-- A masked byte has no bit outside its mask (R186). -/
theorem and_mask_and_not_mask (b mask : Byte) : b &&& mask &&& ~~~mask = 0 := by
  rw [BitVec.and_assoc, BitVec.and_not_self]
  exact BitVec.and_zero

/-- Settles O29: the one draw counts up, and the masked sample is then a register write. -/
theorem rndMasksOneFreeSample : Obligations.RndMasksOneFreeSample := by
  intro x nn s
  obtain ⟨hframe, hvx, hother⟩ := wroteReg_setV { s with draws := s.draws + 1 } x (Config.rnd s.draws &&& nn)
  exact ⟨_, rfl, hframe, hvx, hvx ▸ and_mask_and_not_mask _ _, hother⟩

/-! ### A result and a flag written -/

/-- The flag write followed by the result write is the effect the statements describe, `x = F` included (R171). -/
theorem wroteFlagged_setFlagThenResult (s : State) (x : Nibble) (f : Bool) (b : Byte) :
    WroteFlagged s (s.setFlagThenResult x f b) x b (flagByte f) := by
  have hgetV := State.getV_setFlagThenResult s x (b := b) (f := f)
  refine ⟨State.setFlagThenResult_eq s x b f, ?result, ?flag, ?others⟩
  case result => exact (hgetV x).trans (if_pos rfl)
  case flag => exact fun hx => (hgetV vF).trans ((if_neg hx.symm).trans (if_pos rfl))
  case others => exact fun r hrx hrF => (hgetV r).trans ((if_neg hrx).trans (if_neg hrF))

/-- An instruction whose meaning is a flag write and a result write, of values that the statement writes its own way. -/
theorem exists_wroteFlagged {i : Instr} {s : State} {x : Nibble} {f : Bool} {b result flag : Byte}
    (hexec : exec i s = .next (s.setFlagThenResult x f b)) (hresult : b = result) (hflag : flagByte f = flag) :
    ∃ t, exec i s = .next t ∧ WroteFlagged s t x result flag :=
  ⟨_, hexec, hresult ▸ hflag ▸ wroteFlagged_setFlagThenResult s x f b⟩

theorem flagByte_of_iff {f : Bool} {p : Prop} [Decidable p] (h : f = true ↔ p) :
    flagByte f = if p then 0x01 else 0x00 :=
  if_congr h rfl rfl

/-- The top bit of the nine-bit sum is set exactly when the unmasked sum exceeds 255 (R178). -/
theorem carryOut_iff (a b : Byte) : carryOut a b = true ↔ 255 < a.toNat + b.toNat := by
  have hsum : (a.zeroExtend 9 + b.zeroExtend 9 : BitVec 9).toNat = a.toNat + b.toNat := by bv_omega
  have hmsb : carryOut a b = (a.zeroExtend 9 + b.zeroExtend 9 : BitVec 9).msb := (BitVec.msb_eq_getLsbD_last _).symm
  rw [hmsb, BitVec.msb_eq_decide, hsum, decide_eq_true_iff]
  exact Nat.succ_le_iff

theorem noBorrow_iff (a b : Byte) : noBorrow a b = true ↔ b.toNat ≤ a.toNat := decide_eq_true_iff

theorem sub_eq_ofNat (a b : Byte) : a - b = BitVec.ofNat 8 ((a.toNat + 256 - b.toNat) % 256) := by bv_omega

/-- Settles O26: the result is the sum modulo 256, the flag the ninth bit of the sum. -/
theorem addSetsResultAndCarry : Obligations.AddSetsResultAndCarry := by
  intro x y s
  exact exists_wroteFlagged rfl (add_eq_ofNat _ _) (flagByte_of_iff (carryOut_iff _ _))

/-- Settles O27: the two differ in which register is the minuend; the flag compares it with the subtrahend. -/
theorem subtractionsSetResultAndNotBorrow : Obligations.SubtractionsSetResultAndNotBorrow := by
  intro x y s
  exact ⟨exists_wroteFlagged rfl (sub_eq_ofNat _ _) (flagByte_of_iff (noBorrow_iff _ _)),
    exists_wroteFlagged rfl (sub_eq_ofNat _ _) (flagByte_of_iff (noBorrow_iff _ _))⟩

/-! ### The shifts -/

theorem shiftRight_one_eq_ofNat (a : Byte) : a >>> 1 = BitVec.ofNat 8 (a.toNat / 2) := by bv_omega

theorem shiftLeft_one_eq_ofNat (a : Byte) : a <<< 1 = BitVec.ofNat 8 (a.toNat * 2 % 256) := by bv_omega

/-- A bit of a byte as a flag (R38): the quotient of the byte by the bit's weight, modulo 2. -/
theorem flagByte_getLsbD (a : Byte) (k : Nat) : flagByte (a.getLsbD k) = BitVec.ofNat 8 (a.toNat / 2 ^ k % 2) := by
  have hflag (f : Bool) : flagByte f = BitVec.ofNat 8 f.toNat := by cases f <;> rfl
  rw [hflag, BitVec.getLsbD, Nat.toNat_testBit]

/-- The bit shifted out to the right is the remainder modulo 2 (R180). -/
theorem flagByte_shiftedOutRight (a : Byte) : flagByte (shiftedOutRight a) = BitVec.ofNat 8 (a.toNat % 2) := by
  rw [shiftedOutRight, flagByte_getLsbD, Nat.pow_zero, Nat.div_one]

/-- The bit shifted out to the left is the whole quotient by 128, a byte being below 256 (R182). -/
theorem flagByte_shiftedOutLeft (a : Byte) : flagByte (shiftedOutLeft a) = BitVec.ofNat 8 (a.toNat / 128) := by
  have hquot : a.toNat / 2 ^ 7 < 2 := Nat.div_lt_of_lt_mul a.isLt
  rw [shiftedOutLeft, flagByte_getLsbD, Nat.mod_eq_of_lt hquot]
  rfl

/-- Settles O28: in place on `Vx`, `y` standing nowhere in the meaning; the flag is the bit shifted out. -/
theorem shiftsSetResultAndBitOut : Obligations.ShiftsSetResultAndBitOut := by
  intro x y s
  exact ⟨exists_wroteFlagged rfl (shiftRight_one_eq_ofNat _) (flagByte_shiftedOutRight _),
    exists_wroteFlagged rfl (shiftLeft_one_eq_ofNat _) (flagByte_shiftedOutLeft _)⟩

end Sys2Proof.Proofs.Alu
end

section
/-! PROOFS. The family 44_index_memory: what is written to `I`, and the block accesses through `I`, whole or cut off by the end of
memory. -/

namespace Sys2Proof.Proofs.IndexMemory

open Sys2Proof.Machine Sys2Proof.Claims Sys2Proof.Proofs.ControlFlow Sys2Proof.Proofs.MemoryAccess

/-! ### The values written to the address register -/

theorem add_wordOf_eq_ofNat (a : Word) (b : Byte) : a + wordOf b = BitVec.ofNat 16 ((a.toNat + b.toNat) % 65536) := by
  rw [wordOf]
  bv_omega

/-- The glyph of the low nibble, five bytes a glyph from `0x050` (R192). -/
theorem glyphAddress_eq_ofNat (b : Byte) : glyphAddress b = BitVec.ofNat 16 (0x050 + 5 * (b.toNat % 16)) := by
  have hnibble : ((b.extractLsb' 0 4).zeroExtend 16 : Word) = BitVec.ofNat 16 (b.toNat % 16) := by
    apply BitVec.eq_of_toNat_eq
    rw [toNat_widen _ (by decide), BitVec.extractLsb'_toNat, Nat.shiftRight_zero, BitVec.toNat_ofNat]
    omega
  rw [glyphAddress, hnibble, BitVec.ofNat_add, BitVec.ofNat_mul]
  rfl

/-- `I` past a block of `x + 1` bytes (R196). -/
theorem advance_eq_ofNat (a : Word) (n : Nat) : a + BitVec.ofNat 16 (n + 1) = BitVec.ofNat 16 (a.toNat + n + 1) := by
  rw [Nat.add_assoc, BitVec.ofNat_add a.toNat, BitVec.ofNat_toNat, BitVec.setWidth_eq]

/-- Settles O30: each of the three writes `I` alone, with a value that is the statement's number. -/
theorem addressRegisterOps : Obligations.AddressRegisterOps := by
  intro nnn x s
  rw [← addrOf_eq_ofNat, ← add_wordOf_eq_ofNat, ← glyphAddress_eq_ofNat]
  exact ⟨rfl, rfl, rfl⟩

/-! ### A block write cut off by the end of memory -/

section CutOffBlock

variable {m : Memory} {a : Nat} {bs : List Byte}

/-- The bytes before the failing address are written (R86). -/
theorem read_writeList_take_inside (hwf : m.wf = true) {k : Nat} (hk : k < bs.length) (ha : a + k < Config.memSize) :
    (m.writeList a (bs.take (Config.memSize - a))).read (a + k) = bs[k] := by
  have hlen : (bs.take (Config.memSize - a)).length = min (Config.memSize - a) bs.length := List.length_take
  rw [Memory.read_writeList_inside hwf (by omega) (by omega), List.getElem_take]

/-- The cells below the block, and the addresses past the end of memory, read as before (R86). -/
theorem read_writeList_take_outside {a' : Nat} (h : a' < a ∨ Config.memSize ≤ a') :
    (m.writeList a (bs.take (Config.memSize - a))).read a' = m.read a' := by
  have hlen : (bs.take (Config.memSize - a)).length = min (Config.memSize - a) bs.length := List.length_take
  exact Memory.read_writeList_outside m _ (by omega)

end CutOffBlock

/-! ### The decimal digits -/

/-- The digits as quotients and remainders of the byte's number (R193). -/
theorem decimalDigits_eq_ofNat (b : Byte) :
    decimalDigits b = [BitVec.ofNat 8 (b.toNat / 100), BitVec.ofNat 8 (b.toNat / 10 % 10), BitVec.ofNat 8 (b.toNat % 10)] := by
  have hhundreds : b / 100 = BitVec.ofNat 8 (b.toNat / 100) := BitVec.udiv_def
  have htens : b / 10 % 10 = BitVec.ofNat 8 (b.toNat / 10 % 10) := by rw [BitVec.umod_def, BitVec.toNat_udiv]; rfl
  have hones : b % 10 = BitVec.ofNat 8 (b.toNat % 10) := BitVec.umod_def
  rw [decimalDigits, hhundreds, htens, hones]

section StoreDigits

variable {x : Nibble} {s : State}

/-- `LD B` with the three cells in range writes the three digits (R193). -/
theorem exec_ldB_of_le (h : s.i.toNat + 3 ≤ Config.memSize) :
    exec (.ldB x) s = .next { s with mem := s.mem.writeList s.i.toNat (decimalDigits (s.getV x)) } := by
  simp only [exec, execLdB, State.memWriteList_of_le s (bs := decimalDigits (s.getV x)) h, answer]

/-- `LD B` past the end of memory raises after the writes that fit (R193, R86). -/
theorem exec_ldB_of_gt (h : Config.memSize < s.i.toNat + 3) :
    exec (.ldB x) s = .next
      (State.raise { s with mem := s.mem.writeList s.i.toNat ((decimalDigits (s.getV x)).take (Config.memSize - s.i.toNat)) }
        .badMemoryAccess s.op) := by
  simp only [exec, execLdB, State.memWriteList_of_gt s (bs := decimalDigits (s.getV x)) (List.cons_ne_nil _ _) h, answer]

end StoreDigits

/-- Settles O31: a block write of the three digits, whole or cut off. -/
theorem bcdStoresDigits : Obligations.BcdStoresDigits := by
  intro x s hwf
  have hsize : Config.memSize = 0xFFF + 1 := rfl
  constructor
  · intro hfits
    have hmem : s.i.toNat + 3 ≤ Config.memSize := by omega
    have hdigits := exec_ldB_of_le (x := x) hmem
    rw [decimalDigits_eq_ofNat] at hdigits
    refine ⟨_, hdigits, rfl, ?hundreds, ?tens, ?ones, ?outside⟩
    case hundreds => exact Memory.read_writeList_inside hwf hmem (k := 0) (by simp)
    case tens => exact Memory.read_writeList_inside hwf hmem (k := 1) (by simp)
    case ones => exact Memory.read_writeList_inside hwf hmem (k := 2) (by simp)
    case outside => exact fun a => Memory.read_writeList_outside s.mem [_, _, _]
  · intro hbeyond
    have hdigits := exec_ldB_of_gt (x := x) (s := s) (by omega)
    rw [decimalDigits_eq_ofNat] at hdigits
    refine ⟨_, hdigits, rfl, ?hundreds, ?tens, ?outside⟩
    case hundreds => exact fun h => read_writeList_take_inside hwf (k := 0) (by simp) (by omega)
    case tens => exact fun h => read_writeList_take_inside hwf (k := 1) (by simp) (by omega)
    case outside => exact fun a => read_writeList_take_outside

/-! ### The block store -/

/-- `LD [I], Vx` past the end of memory raises after the writes that fit, and leaves `I` alone (R194, R86). -/
theorem exec_storeRegs_of_ge {x : Nibble} {s : State} (h : Config.memSize ≤ s.i.toNat + x.toNat) :
    exec (.storeRegs x) s = .next
      (State.raise { s with mem := s.mem.writeList s.i.toNat ((s.regsUpTo x).take (Config.memSize - s.i.toNat)) }
        .badMemoryAccess s.op) := by
  have hlen := regsUpTo_length s x
  have hne : s.regsUpTo x ≠ [] := List.ne_nil_of_length_pos (by omega)
  simp only [exec, execStoreRegs, State.memWriteList_of_gt s hne (a := s.i) (by omega), answer]

theorem getV_ofNat_toNat (s : State) (k : Nibble) : s.getV (BitVec.ofNat 4 k.toNat) = s.getV k := by
  rw [BitVec.ofNat_toNat, BitVec.setWidth_eq]

/-- Settles O32: a block write of `V0` to `Vx`, whole or cut off. -/
theorem blockStoreWritesAndAdvances : Obligations.BlockStoreWritesAndAdvances := by
  intro x s hwf
  have hsize : Config.memSize = 0xFFF + 1 := rfl
  have hlen := regsUpTo_length s x
  constructor
  · intro hfits
    have hmem : s.i.toNat + x.toNat < Config.memSize := by omega
    refine ⟨_, exec_storeRegs_of_lt hmem, ?frame, ?stored, ?outside⟩
    case frame => rw [advance_eq_ofNat]
    case stored => exact fun k hk => (read_writeList_regsUpTo hwf hmem hk).trans (getV_ofNat_toNat s k)
    case outside => exact fun a ha => Memory.read_writeList_outside s.mem _ (by omega)
  · intro hbeyond
    refine ⟨_, exec_storeRegs_of_ge (by omega), rfl, ?stored, ?outside⟩
    case stored =>
      intro k hk hak
      have hcell := read_writeList_take_inside (bs := s.regsUpTo x) hwf (k := k.toNat) (by omega) (a := s.i.toNat) (by omega)
      exact hcell.trans ((regsUpTo_getElem s x _).trans (getV_ofNat_toNat s k))
    case outside => exact fun a => read_writeList_take_outside

/-! ### The block load -/

section LoadRegs

variable {x : Nibble} {s u : State}

theorem exec_loadRegs_of_ok (h : s.loadRegsFrom s.i 0 (x.toNat + 1) = .ok u) :
    exec (.loadRegs x) s = .next { u with i := s.i + BitVec.ofNat 16 (x.toNat + 1) } := by
  simp only [exec, execLoadRegs, h, answer]

theorem exec_loadRegs_of_error (h : s.loadRegsFrom s.i 0 (x.toNat + 1) = .error u) :
    exec (.loadRegs x) s = .next (u.raise .badMemoryAccess u.op) := by
  simp only [exec, execLoadRegs, h, answer]

end LoadRegs

/-- Settles O33: the load of the registers, whole or cut off, which says register by register whether it was loaded. -/
theorem blockLoadReadsAndAdvances : Obligations.BlockLoadReadsAndAdvances := by
  intro x s
  have hsize : Config.memSize = 0xFFF + 1 := rfl
  have hx := x.isLt
  constructor
  · intro hfits
    obtain ⟨u, hload, hframe, hregs⟩ :=
      State.loadRegsFrom_of_le (s := s) (i0 := s.i) (k := 0) (n := x.toNat + 1) (by omega) (by omega)
    refine ⟨_, exec_loadRegs_of_ok hload, ?frame, ?loaded, ?kept⟩
    case frame =>
      rw [advance_eq_ofNat]
      exact congrArg (fun t : State => { t with i := BitVec.ofNat 16 (s.i.toNat + x.toNat + 1) }) hframe
    case loaded => exact fun k hk => (hregs k).trans (if_pos (by omega))
    case kept => exact fun k hk => (hregs k).trans (if_neg (by omega))
  · intro hbeyond
    obtain ⟨u, hload, hframe, hregs⟩ :=
      State.loadRegsFrom_of_gt (s := s) (i0 := s.i) (k := 0) (n := x.toNat + 1) (by omega) (by omega) (by omega) (.inr rfl)
    refine ⟨_, exec_loadRegs_of_error hload, ?frame, ?loaded, ?kept⟩
    case frame => exact congrArg (fun t : State => t.raise .badMemoryAccess t.op) hframe
    case loaded => exact fun k hk hak => (hregs k).trans (if_pos (by omega))
    case kept => exact fun k hk => (hregs k).trans (if_neg (by omega))

/-- Settles O34: the load reads, cell by cell, what the store wrote there, and both move `I` past the same block. -/
theorem blockLoadRestoresBlockStore : Obligations.BlockLoadRestoresBlockStore := by
  intro x s hwf hrange
  obtain ⟨t, hstore, htFrame, hstored, -⟩ := (blockStoreWritesAndAdvances x s hwf).1 hrange
  refine ⟨t, hstore, fun w => ?_⟩
  obtain ⟨u, hload, huFrame, hloaded, -⟩ := (blockLoadReadsAndAdvances x { t with v := w, i := s.i }).1 hrange
  refine ⟨u, hload, ?address, ?memory, ?restored⟩
  case address => rw [huFrame, htFrame]
  case memory => rw [huFrame]
  case restored => exact fun k hk => (hloaded k hk).trans (hstored k hk)

end Sys2Proof.Proofs.IndexMemory
end

section
/-! PROOFS. The family 45_display: the reference display under one draw and two, `CLS` and `DRW`, and where display transactions come
from. -/

namespace Sys2Proof.Proofs.DisplayDrawing

open Sys2Proof.Machine Sys2Proof.Claims Sys2Proof.Proofs.ControlFlow Sys2Proof.Proofs.Alu

/-! ### What a drawing step does, and two in a row -/

theorem xor_eq_or_of_disjoint : ∀ {b c : Bool}, (b && c) = false → (b ^^ c) = (b || c) := by decide

/-- Between two states of a drawing exactly the pixels of `p` have changed, and a collision is new exactly when one of them was set
(R205). -/
structure Flips (p : Fin 64 → Fin 32 → Bool) (a b : Display × Bool) : Prop where
  pixel : ∀ cx cy, b.1.pixel cx cy = (a.1.pixel cx cy ^^ p cx cy)
  collided : b.2 = true ↔ a.2 = true ∨ ∃ cx cy, a.1.pixel cx cy = true ∧ p cx cy = true

namespace Flips

variable {p q u : Fin 64 → Fin 32 → Bool} {a b c : Display × Bool}

theorem of_empty (hp : ∀ cx cy, p cx cy = false) : Flips p a a where
  pixel cx cy := by simp [hp]
  collided := by simp [hp]

/-- The second step sees the pixels of `q` as they were before the first, which has not touched them: so the collisions add up. -/
theorem trans_of_disjoint (hp : Flips p a b) (hq : Flips q b c)
    (hparts : ∀ cx cy, (p cx cy && q cx cy) = false ∧ u cx cy = (p cx cy || q cx cy)) : Flips u a c where
  pixel cx cy := by
    obtain ⟨hdisjoint, hunion⟩ := hparts cx cy
    rw [hq.pixel, hp.pixel, hunion, Bool.xor_assoc, xor_eq_or_of_disjoint hdisjoint]
  collided := by
    have huntouched (cx cy) : (b.1.pixel cx cy = true ∧ q cx cy = true) ↔ (a.1.pixel cx cy = true ∧ q cx cy = true) := by
      refine and_congr_left fun hqx => ?_
      have hpx : p cx cy = false := by simpa [hqx] using (hparts cx cy).1
      rw [hp.pixel, hpx, Bool.xor_false]
    simp only [hq.collided, hp.collided, huntouched, fun cx cy => (hparts cx cy).2, Bool.or_eq_true, and_or_left, exists_or,
      or_assoc]

end Flips

theorem flips_drawBit (acc : Display × Bool) (cx : Fin 64) (cy : Fin 32) (bit : Bool) :
    Flips (fun cx' cy' => decide (cx' = cx ∧ cy' = cy) && bit) acc (Display.drawBit acc cx cy bit) where
  pixel cx' cy' := by
    rw [Display.drawBit_eq]
    cases bit
    · simp
    · simp [Display.pixel_flip]
  collided := by
    rw [Display.drawBit_eq]
    cases bit <;> simp

/-! ### Where a sprite bit falls -/

/-- How many columns `cx` is to the right of column `x`, going round (R206). -/
def colDist (x : Byte) (cx : Fin 64) : Nat := (cx.val + 256 - x.toNat) % 64

/-- How many lines `cy` is below line `y`, going round (R206). -/
def rowDist (y : Byte) (cy : Fin 32) : Nat := (cy.val + 256 - y.toNat) % 32

theorem spriteBitAt_eq (x y : Byte) (rows : List Byte) (cx : Fin 64) (cy : Fin 32) :
    SpriteBitAt x y rows cx cy = (decide (colDist x cx < 8) && (rows.getD (rowDist y cy) 0).getLsbD (7 - colDist x cx)) :=
  rfl

theorem eq_column_iff (x : Byte) (cx : Fin 64) {c : Nat} (hc : c < 64) : cx = column (x.toNat + c) ↔ colDist x cx = c := by
  have hx := x.isLt
  have hcx := cx.isLt
  simp only [Fin.ext_iff, column, colDist]
  omega

theorem eq_line_iff (y : Byte) (cy : Fin 32) {r : Nat} (hr : r < 32) : cy = line (y.toNat + r) ↔ rowDist y cy = r := by
  have hy := y.isLt
  have hcy := cy.isLt
  simp only [Fin.ext_iff, line, rowDist]
  omega

/-! ### The columns of a row, the rows of a sprite -/

/-- Different columns of one row fall on different pixels, at their distances from the corner. -/
theorem flips_drawColumns (x : Byte) (cy : Fin 32) (row : Byte) {cs : List Nat} (hlt : ∀ c ∈ cs, c < 64) (hnodup : cs.Nodup)
    (acc : Display × Bool) :
    Flips (fun cx' cy' => decide (cy' = cy) && (decide (colDist x cx' ∈ cs) && row.getLsbD (7 - colDist x cx')))
      acc (Display.drawColumns x.toNat cy row cs acc) := by
  induction cs generalizing acc with
  | nil => exact .of_empty fun _ _ => by simp
  | cons c cs ih =>
    obtain ⟨hc, hcs⟩ := List.forall_mem_cons.mp hlt
    obtain ⟨hnotMem, hnodup⟩ := List.nodup_cons.mp hnodup
    refine (flips_drawBit acc (column (x.toNat + c)) cy _).trans_of_disjoint (ih hcs hnodup _) fun cx' cy' => ?_
    simp only [eq_column_iff x cx' hc, List.mem_cons]
    by_cases hd : colDist x cx' = c
    · simp [hd, hnotMem]
    · simp [hd]

/-- Up to 32 rows fall on different lines, at their distances from the corner. -/
theorem flips_drawRows (x y : Byte) {r : Nat} {rows : List Byte} (hlen : r + rows.length ≤ 32) (acc : Display × Bool) :
    Flips (fun cx' cy' => decide (r ≤ rowDist y cy') &&
        (decide (colDist x cx' < 8) && (rows.getD (rowDist y cy' - r) 0).getLsbD (7 - colDist x cx')))
      acc (Display.drawRows x.toNat y.toNat r rows acc) := by
  induction rows generalizing r acc with
  | nil => exact .of_empty fun _ _ => by simp
  | cons row rows ih =>
    rw [List.length_cons] at hlen
    have hcols := flips_drawColumns x (line (y.toNat + r)) row (cs := List.range 8)
      (fun c hc => (List.mem_range.mp hc).trans (by decide)) List.nodup_range acc
    refine hcols.trans_of_disjoint (ih (r := r + 1) (by omega) _) fun cx' cy' => ?_
    simp only [eq_line_iff y cy' (show r < 32 by omega), List.mem_range]
    obtain hd | hd | hd := Nat.lt_trichotomy (rowDist y cy') r
    · simp [hd.ne, Nat.not_le.mpr hd, Nat.not_le.mpr (Nat.lt_succ_of_lt hd)]
    · simp [hd]
    · obtain ⟨k, hk⟩ := Nat.exists_eq_add_of_lt hd
      simp [hk, Nat.add_assoc, show r + (k + 1) - (r + 1) = k by omega]

/-- A whole draw flips the pixels under the sprite's bits. -/
theorem flips_draw (d : Display) (x y : Byte) {rows : List Byte} (hlen : rows.length ≤ 15) :
    Flips (SpriteBitAt x y rows) (d, false) (d.draw x y rows) := by
  have hrows := flips_drawRows x y (r := 0) (rows := rows) (by omega) (d, false)
  simp only [Nat.zero_le, decide_true, Bool.true_and, Nat.sub_zero] at hrows
  exact hrows

/-- Settles O41: a draw begins with no collision, so what it answers is its own. -/
theorem drawXorsSpriteOntoGrid : Obligations.DrawXorsSpriteOntoGrid := by
  intro d x y rows hlen
  have hdraw := flips_draw d x y hlen
  exact ⟨hdraw.pixel, by simpa using hdraw.collided⟩

/-! ### Two equal draws -/

/-- A bit of a sprite of at most 15 rows falls on some pixel, exactly when the sprite is not blank. -/
theorem exists_spriteBitAt_iff (x y : Byte) {rows : List Byte} (hlen : rows.length ≤ 15) :
    (∃ cx cy, SpriteBitAt x y rows cx cy = true) ↔ ∃ b ∈ rows, b ≠ 0 := by
  constructor
  · rintro ⟨cx, cy, hbit⟩
    rw [spriteBitAt_eq, Bool.and_eq_true] at hbit
    have hrow : rows.getD (rowDist y cy) 0 ≠ 0 := fun h0 => by
      rw [h0] at hbit
      simp at hbit
    have hr : rowDist y cy < rows.length := by
      by_contra hge
      exact hrow (List.getD_eq_default _ _ (Nat.le_of_not_lt hge))
    rw [List.getD_eq_getElem _ _ hr] at hrow
    exact ⟨_, List.getElem_mem hr, hrow⟩
  · rintro ⟨b, hb, hne⟩
    obtain ⟨r, hr, rfl⟩ := List.getElem_of_mem hb
    obtain ⟨k, hk, hbit⟩ : ∃ k, k < 8 ∧ rows[r].getLsbD k = true := by
      by_contra hnone
      exact hne (BitVec.eq_of_getLsbD_eq fun k hk => by simpa using fun hbit => hnone ⟨k, hk, hbit⟩)
    have hcol := (eq_column_iff x (column (x.toNat + (7 - k))) (c := 7 - k) (by omega)).mp rfl
    have hline := (eq_line_iff y (line (y.toNat + r)) (r := r) (by omega)).mp rfl
    refine ⟨column (x.toNat + (7 - k)), line (y.toNat + r), ?_⟩
    rw [spriteBitAt_eq, hcol, hline, List.getD_eq_getElem _ _ hr, show 7 - (7 - k) = k by omega, hbit]
    simp only [Bool.and_true, decide_eq_true_eq]
    omega

/-- Settles O42: the two flips of a pixel cancel; on a cleared grid the first draw leaves exactly the sprite's bits set, and the second
meets all of them. -/
theorem drawTwiceRestoresGrid : Obligations.DrawTwiceRestoresGrid := by
  intro x y rows hlen
  have hfirst := flips_draw Display.cleared x y hlen
  have hsecond := flips_draw (Display.cleared.draw x y rows).1 x y hlen
  refine ⟨?restored, ?first, ?second⟩
  case restored =>
    intro d cx cy
    rw [(flips_draw _ x y hlen).pixel, (flips_draw d x y hlen).pixel, Bool.xor_assoc, Bool.xor_self, Bool.xor_false]
  case first => simpa using hfirst.collided
  case second => simp [hsecond.collided, hfirst.pixel, exists_spriteBitAt_iff x y hlen]

/-! ### `CLS` and `DRW` -/

/-- Settles O38: `CLS` is the clear, after which the grid is the cleared one. -/
theorem clsClearsDisplay : Obligations.ClsClearsDisplay :=
  fun s => ⟨s.displayClear, rfl, rfl, Display.pixel_cleared⟩

section DrawInstruction

variable {x y n : Nibble} {s : State}

theorem toNat_pos_of_ne_zero (hn : n ≠ 0) : 0 < n.toNat := Nat.pos_of_ne_zero fun h0 => hn (BitVec.eq_of_toNat_eq h0)

theorem exec_drw_of_zero (hn : n = 0) : exec (.drw x y n) s = .next (s.setV vF 0x00) := if_pos hn

theorem exec_drw_of_rows {rows : List Byte} (hn : n ≠ 0) (hrows : s.memReadList s.i n.toNat = some rows) :
    exec (.drw x y n) s = .next (s.displayDraw (s.getV x) (s.getV y) rows) := by
  simp only [exec, execDrw, if_neg hn, hrows, answer]

theorem exec_drw_of_gt (hn : n ≠ 0) (h : Config.memSize < s.i.toNat + n.toNat) :
    exec (.drw x y n) s = .next (s.raise .badMemoryAccess s.op) := by
  simp only [exec, execDrw, if_neg hn, State.memReadList_of_gt s (toNat_pos_of_ne_zero hn) h, answer]

end DrawInstruction

/-- Settles O39: the rows are read whole, and the draw then ends in one register write, of the answer to `VF`. -/
theorem drwDrawsSprite : Obligations.DrwDrawsSprite := by
  intro x y n s hn hfits
  have hsize : Config.memSize = 0xFFF + 1 := rfl
  have hpos := toNat_pos_of_ne_zero hn
  obtain ⟨rows, hread, hlen, hbytes⟩ := State.memReadList_of_le s (a := s.i) (n := n.toNat) (by omega)
  refine ⟨_, rows, exec_drw_of_rows hn hread, hlen, ?bytes, rfl, ?flag, ?others⟩
  case bytes => exact fun k hk => (List.getD_eq_getElem _ _ (hlen ▸ hk)).trans (hbytes k (hlen ▸ hk))
  case flag => exact State.getV_setV_same _ vF _
  case others => exact fun r hr => State.getV_setV_ne _ vF r _ hr

/-- Settles O40: the raise of an error, and one register write. -/
theorem drwEdgeCases : Obligations.DrwEdgeCases := by
  intro x y n s
  have hsize : Config.memSize = 0xFFF + 1 := rfl
  constructor
  · intro hn hbeyond
    have hpos := toNat_pos_of_ne_zero hn
    rw [exec_drw_of_gt hn (by omega), raise_eq_haltedWith]
  · intro hn
    exact ⟨_, exec_drw_of_zero hn, wroteReg_setV s vF 0x00⟩

/-! ### Where display transactions come from -/

theorem skipIf_txns_display (s : State) (c : Bool) : (s.skipIf c).txns = s.txns ∧ (s.skipIf c).display = s.display := by
  cases c <;> exact ⟨rfl, rfl⟩

/-- Every other instruction leaves the display port alone, the raise of an error included (R204, R256). -/
theorem exec_txns_display_of_ne {i : Instr} {s t : State} (hcls : i ≠ .cls) (hdrw : ∀ x y n, i ≠ .drw x y n)
    (h : exec i s = .next t) : t.txns = s.txns ∧ t.display = s.display := by
  cases i with
  | cls => exact absurd rfl hcls
  | drw x y n => exact absurd rfl (hdrw x y n)
  | call nnn => obtain ⟨_, rfl⟩ | ⟨_, rfl⟩ := exec_call_cases h <;> exact ⟨rfl, rfl⟩
  | ret => obtain ⟨_, rfl⟩ | ⟨_, rfl⟩ := exec_ret_cases h <;> exact ⟨rfl, rfl⟩
  | jpV0 nnn => obtain ⟨_, rfl⟩ | ⟨_, rfl⟩ := exec_jpV0_cases h <;> exact ⟨rfl, rfl⟩
  | ldB x => obtain ⟨_, _, ⟨_, rfl⟩ | ⟨_, rfl⟩⟩ := exec_ldB_cases h <;> exact ⟨rfl, rfl⟩
  | storeRegs x => obtain ⟨_, _, ⟨_, rfl⟩ | ⟨_, rfl⟩⟩ := exec_storeRegs_cases h <;> exact ⟨rfl, rfl⟩
  | loadRegs x => obtain ⟨_, ⟨_, rfl⟩ | ⟨_, rfl⟩⟩ := exec_loadRegs_cases h <;> exact ⟨rfl, rfl⟩
  | seImm | sneImm | seReg | sneReg | skp | sknp => cases h; exact skipIf_txns_display s _
  | _ => cases h; exact ⟨rfl, rfl⟩

/-- Settles O43: `CLS`, the three outcomes of `DRW`, and the others. -/
theorem displayTransactionsOnlyFromClsAndDrw : Obligations.DisplayTransactionsOnlyFromClsAndDrw := by
  intro i s t h
  by_cases hcls : i = .cls
  · subst hcls
    cases h
    exact .inr (.inl ⟨rfl, rfl⟩)
  by_cases hdrw : ∃ x y n, i = .drw x y n
  · obtain ⟨x, y, n, rfl⟩ := hdrw
    obtain ⟨hn, rfl⟩ | ⟨hn, rows, -, hlen, rfl⟩ | ⟨-, hbeyond, rfl⟩ := exec_drw_cases h
    · refine .inl ⟨rfl, rfl, hcls, fun x' y' n' heq => .inl ?_⟩
      cases heq
      exact hn
    · exact .inr (.inr ⟨x, y, n, rows, rfl, hn, hlen, rfl⟩)
    · refine .inl ⟨rfl, rfl, hcls, fun x' y' n' heq => .inr ?_⟩
      cases heq
      have hsize : Config.memSize = 0xFFF + 1 := rfl
      omega
  · have hdrw (x y n) : i ≠ .drw x y n := fun heq => hdrw ⟨x, y, n, heq⟩
    obtain ⟨htxns, hdisplay⟩ := exec_txns_display_of_ne hcls hdrw h
    exact .inl ⟨htxns, hdisplay, hcls, fun x y n heq => absurd heq (hdrw x y n)⟩

end Sys2Proof.Proofs.DisplayDrawing
end

section
/-! PROOFS. The family 46_keyboard_timers: the key skips, the two transitions that finish `LD Vx, K`, and the timer instructions. -/

namespace Sys2Proof.Proofs.KeyboardTimers

open Sys2Proof.Machine Sys2Proof.Claims Sys2Proof.Proofs.Skips Sys2Proof.Proofs.Alu

/-! ### The key skips -/

/-- There are sixteen keys, so a code above `0x0F` is never down (R210, log entry 11). -/
theorem isDown_iff (s : State) (k : Byte) : s.isDown k = true ↔ k.toNat ≤ 0x0F ∧ s.keys.getLsbD k.toNat = true :=
  ⟨fun h => ⟨Nat.le_of_lt_succ (BitVec.lt_of_getLsbD h), h⟩, And.right⟩

theorem not_isDown_iff (s : State) (k : Byte) :
    (!s.isDown k) = true ↔ 0x0F < k.toNat ∨ s.keys.getLsbD k.toNat = false := by
  rw [Bool.not_eq_true', Bool.eq_false_iff, ne_eq, isDown_iff, not_and_or, Nat.not_le, Bool.not_eq_true]

/-- Settles O23: each of the two is the skip action, on the test of the key. -/
theorem keySkipsAdvancePc : Obligations.KeySkipsAdvancePc :=
  fun _ s => ⟨exec_of_skipIf rfl (isDown_iff s _), exec_of_skipIf rfl (not_isDown_iff s _)⟩

/-! ### The key wait -/

/-- A settled key-wait progress is the next step. -/
theorem step_of_keyProgress {s : State} {rest : List Event} (h : s.agenda = .keyProgress :: rest) :
    step s = .next (State.keyProgress { s with agenda := rest }) :=
  step_of_agenda h

section KeyWait

variable (s : State)

theorem keyProgress_of_keyPress (h : s.phase = .keyPress) : s.keyProgress = s.keyLatch := by
  rw [State.keyProgress, h]

theorem keyProgress_of_keyRelease (h : s.phase = .keyRelease) : s.keyProgress = s.keyComplete := by
  rw [State.keyProgress, h]

theorem lowestKey_of_zero (h : s.keys = 0) : s.lowestKey = none := by
  have hnone : (List.range 16).find? (fun k => s.keys.getLsbD k) = none := by
    rw [List.find?_range_eq_none, h]
    exact fun _ _ => congrArg not BitVec.getLsbD_zero
  rw [State.lowestKey, hnone, Option.map_none]

/-- The search goes up from key 0, so it finds the least key that is down (R213). -/
theorem lowestKey_of_least {k : Nibble} (hdown : s.keys.getLsbD k.toNat = true)
    (hleast : ∀ j, j < k.toNat → s.keys.getLsbD j = false) : s.lowestKey = some k := by
  have hfound : (List.range 16).find? (fun j => s.keys.getLsbD j) = some k.toNat :=
    List.find?_range_eq_some.mpr ⟨hdown, List.mem_range.mpr k.isLt, fun j hj => congrArg not (hleast j hj)⟩
  rw [State.lowestKey, hfound, Option.map_some, BitVec.ofNat_toNat, BitVec.setWidth_eq]

theorem keyLatch_of_none (h : s.lowestKey = none) : s.keyLatch = s := by
  rw [State.keyLatch, h]

theorem keyLatch_of_some {k : Nibble} (h : s.lowestKey = some k) :
    s.keyLatch = { s with kk := k, phase := .keyRelease } := by
  rw [State.keyLatch, h]

/-- The latched key as a key code (R214). -/
theorem isDown_latched : s.isDown (s.kk.zeroExtend 8) = s.keys.getLsbD s.kk.toNat :=
  congrArg s.keys.getLsbD (BitVec.toNat_setWidth_of_le (by decide))

theorem keyComplete_of_down (h : s.keys.getLsbD s.kk.toNat = true) : s.keyComplete = s :=
  if_pos ((isDown_latched s).trans h)

/-- The step retires with `Continue`, because `PC` is past the suspended instruction (R138, R214). -/
theorem keyComplete_of_up (h : s.keys.getLsbD s.kk.toNat = false) (hpc : s.pc ≠ s.pc0) :
    s.keyComplete = State.setV { s with phase := .idle } s.kx (s.kk.zeroExtend 8) := by
  have hup : ¬ s.isDown (s.kk.zeroExtend 8) = true := by rw [isDown_latched, h]; exact Bool.false_ne_true
  obtain ⟨-, -, hself, -⟩ | ⟨-, hretire⟩ :=
    State.retire_cases (State.setV { s with phase := .idle } s.kx (s.kk.zeroExtend 8))
  · exact absurd hself hpc
  · exact (if_neg hup).trans hretire

end KeyWait

/-- Settles O45: in `KEY_PRESS` the progress is the latch, which depends on what the search for the lowest key finds. -/
theorem keyWaitLatchesLowestKey : Obligations.KeyWaitLatchesLowestKey := by
  intro s rest hagenda hphase
  rw [step_of_keyProgress hagenda, keyProgress_of_keyPress { s with agenda := rest } hphase]
  constructor
  · intro hnone
    rw [keyLatch_of_none { s with agenda := rest } (lowestKey_of_zero _ hnone)]
  · intro k hdown hleast
    rw [keyLatch_of_some { s with agenda := rest } (lowestKey_of_least _ hdown hleast)]

/-- Settles O46: in `KEY_RELEASE` the progress is the completion, which is one register write when the latched key is up. -/
theorem keyWaitCompletesOnRelease : Obligations.KeyWaitCompletesOnRelease := by
  intro s rest hagenda hphase hpc
  rw [step_of_keyProgress hagenda, keyProgress_of_keyRelease { s with agenda := rest } hphase]
  constructor
  · intro hdown
    rw [keyComplete_of_down { s with agenda := rest } hdown]
  · intro hup
    have hne : s.pc ≠ s.pc0 := by bv_omega
    obtain ⟨hframe, hkx, hother⟩ := wroteReg_setV { s with agenda := rest, phase := .idle } s.kx (s.kk.zeroExtend 8)
    rw [keyComplete_of_up { s with agenda := rest } hup hne]
    exact ⟨_, rfl, hframe, hkx.trans (BitVec.ofNat_toNat 8 s.kk).symm, hother⟩

/-- Settles O44: the suspended state is what the meaning of `LD Vx, K` answers. -/
theorem keyReadSuspends : Obligations.KeyReadSuspends :=
  fun _ _ => rfl

/-! ### The timer instructions -/

theorem soundOn_iff (s : State) : s.soundOn = true ↔ s.st ≠ 0 := bne_iff_ne

/-- Settles O47: one register write, and one write to each timer; the tone is read off `ST`. -/
theorem timerInstructions : Obligations.TimerInstructions :=
  fun x s => ⟨exists_wroteReg rfl rfl, rfl, { s with st := s.getV x }, rfl, rfl, soundOn_iff _⟩

end Sys2Proof.Proofs.KeyboardTimers
end

section
/-! PROOFS. The family 47_timers_scheduler: the timer tick, the triggers, `start()` and `stop()`, and the invariant that every step
keeps. -/

namespace Sys2Proof.Proofs.TimersScheduler

open Sys2Proof.Machine Sys2Proof.Proofs.RegisterState Sys2Proof.Proofs.FetchDecode

/-! ### The timer tick -/

/-- Counting down by one stops at 0, as the truncated difference does (R221). -/
theorem countDown_eq_ofNat (b : Byte) : (if b = 0 then 0 else b - 1) = BitVec.ofNat 8 (b.toNat - 1) := by
  split
  next hzero => rw [hzero]; rfl
  next hpos => bv_omega

theorem timerTick_eq (s : State) :
    s.timerTick = { s with dt := BitVec.ofNat 8 (s.dt.toNat - 1), st := BitVec.ofNat 8 (s.st.toNat - 1) } := by
  rw [State.timerTick, countDown_eq_ofNat, countDown_eq_ofNat]

theorem toNat_countDown (b : Byte) : (BitVec.ofNat 8 (b.toNat - 1)).toNat = b.toNat - 1 := by
  rw [BitVec.toNat_ofNat, Nat.mod_eq_of_lt (Nat.lt_of_le_of_lt (Nat.sub_le _ _) b.isLt)]

/-- Settles O48: the delivery takes the timer tick, and its count is the truncated difference. -/
theorem timerTickDeliveredFirst : Obligations.TimerTickDeliveredFirst := by
  intro s rest hagenda htimer
  rw [step_of_agenda hagenda]
  refine (State.deliver_of_timer (s := { s with agenda := rest }) htimer).trans ?_
  rw [timerTick_eq]

/-- Settles O49, by induction on the number of ticks: one more takes one more off, and nothing off 0. -/
theorem timersCountDownToZero : Obligations.TimersCountDownToZero := by
  intro n s
  induction n with
  | zero => exact ⟨rfl, rfl⟩
  | succ n ih =>
    obtain ⟨hdt, hst⟩ := ih
    rw [Function.iterate_succ_apply', timerTick_eq, toNat_countDown, toNat_countDown, hdt, hst]
    exact ⟨Nat.sub_sub _ n 1, Nat.sub_sub _ n 1⟩

/-! ### The triggers -/

/-- The execution trigger sets `EXEC_PEND` while armed and idle; a flag that is set stays set (R229). -/
theorem fireExec_eq (s : State) :
    s.fireExec = { s with execPend := s.execPend || (s.armed && decide (s.phase = .idle)) } := by
  unfold State.fireExec
  split
  next hfires =>
    have hset : (s.execPend || (s.armed && decide (s.phase = .idle))) = true := by
      rw [((Bool.and_eq_true _ _).mp hfires).1, Bool.or_true]
    rw [hset]
  next hdropped =>
    have hkept : (s.execPend || (s.armed && decide (s.phase = .idle))) = s.execPend := by
      cases hpend : s.execPend with
      | true => exact Bool.true_or _
      | false => simpa [hpend] using hdropped
    rw [hkept]

/-- The 60 Hz trigger sets `TIMER_PEND` while armed (R230). -/
theorem fireTimer_eq (s : State) : s.fireTimer = { s with timerPend := s.timerPend || s.armed } := by
  unfold State.fireTimer
  split
  next harmed => rw [harmed, Bool.or_true]
  next hdisarmed =>
    have hkept : (s.timerPend || s.armed) = s.timerPend := by
      rw [Bool.eq_false_of_not_eq_true hdisarmed, Bool.or_false]
    rw [hkept]

/-- Settles O50: the two fires, each as a formula of the flags. -/
theorem triggersSetPendingFlags : Obligations.TriggersSetPendingFlags := by
  intro s rest
  constructor
  · intro hagenda
    exact (step_of_agenda hagenda).trans (congrArg Host.Outcome.next (fireExec_eq _))
  · intro hagenda
    exact (step_of_agenda hagenda).trans (congrArg Host.Outcome.next (fireTimer_eq _))

/-! ### `start()` and `stop()` -/

section StartCommand

variable {s : State}

theorem cmdStart_of_halted (h : s.halt ≠ .run) : s.cmdStart = { s with cmdStatus := .refused } := if_pos h

theorem cmdStart_of_armed (hrun : s.halt = .run) (harmed : s.armed = true) : s.cmdStart = { s with cmdStatus := .ok } := by
  rw [State.cmdStart, if_neg (not_not_intro hrun), if_pos harmed]

theorem cmdStart_of_disarmed (hrun : s.halt = .run) (harmed : s.armed = false) :
    s.cmdStart = { s with armed := true, execPend := false, timerPend := false, cmdStatus := .ok } := by
  rw [State.cmdStart, if_neg (not_not_intro hrun), if_neg (ne_true_of_eq_false harmed)]

end StartCommand

/-- Whatever `start()` does, it writes `SCHED` and the command answer only (R226). -/
theorem cmdStart_frame (s : State) :
    s.cmdStart =
      { s with
        armed := s.cmdStart.armed, execPend := s.cmdStart.execPend, timerPend := s.cmdStart.timerPend,
        cmdStatus := s.cmdStart.cmdStatus } := by
  unfold State.cmdStart
  split
  · rfl
  · split <;> rfl

/-- A settled `start()` is the next step. -/
theorem step_of_cmdStart {s : State} {rest : List Event} (h : s.agenda = .cmdStart :: rest) :
    step s = .next (State.cmdStart { s with agenda := rest }) :=
  step_of_agenda h

/-- Settles O51: the three outcomes of `start()`, and `stop()`. -/
theorem startAndStopSetScheduler : Obligations.StartAndStopSetScheduler := by
  intro s rest
  refine ⟨?halted, ?armed, ?disarmed, ?stop⟩
  case halted =>
    intro hagenda hhalt
    rw [step_of_cmdStart hagenda, cmdStart_of_halted (s := { s with agenda := rest }) hhalt]
  case armed =>
    intro hagenda hrun harmed
    rw [step_of_cmdStart hagenda, cmdStart_of_armed (s := { s with agenda := rest }) hrun harmed]
    exact ⟨_, rfl⟩
  case disarmed =>
    intro hagenda hrun harmed
    rw [step_of_cmdStart hagenda, cmdStart_of_disarmed (s := { s with agenda := rest }) hrun harmed]
    exact ⟨_, rfl⟩
  case stop => exact fun hagenda => ⟨_, step_of_agenda hagenda⟩

/-- In a good disarmed state nothing is pending, so there is nothing for `stop()` to discard (R227, R240). -/
theorem stopScheduler_of_disarmed {s : State} (hs : s.Inv) (harmed : s.armed = false) : s.stopScheduler = s := by
  have hdisarmed : ¬ s.armed = true := ne_true_of_eq_false harmed
  have hexec : s.execPend = false := Bool.eq_false_of_not_eq_true (mt hs.execPendArmed hdisarmed)
  have htimer : s.timerPend = false := Bool.eq_false_of_not_eq_true (mt hs.timerPendArmed hdisarmed)
  cases s
  simp only at harmed hexec htimer
  rw [State.stopScheduler, harmed, hexec, htimer]

/-- What `start()` writes, `stop()` writes over (R226, R227). -/
theorem cmdStop_cmdStart (s : State) (rest : List Event) :
    State.cmdStop { s.cmdStart with agenda := rest } = { s.stopScheduler with agenda := rest, cmdStatus := .ok } := by
  rw [cmdStart_frame]
  rfl

theorem run_two_of_next {M : Host.Core} {s t u : M.State} (hfirst : M.step s = .next t) (hsecond : M.step t = .next u) :
    M.run 2 s = .next u := by
  simp only [Host.Core.run, hfirst, hsecond]

/-- Settles O52: `stop()` writes over what `start()` wrote, with the values of a good disarmed state. -/
theorem startThenStopDeliversNothing : Obligations.StartThenStopDeliversNothing := by
  intro s rest hagenda hs harmed
  have hstart := step_of_cmdStart hagenda
  have hstop := step_of_agenda (congrArg State.agenda (cmdStart_frame { s with agenda := .cmdStop :: rest }))
  rw [State.perform, cmdStop_cmdStart] at hstop
  refine ⟨.ok, (run_two_of_next (M := core) hstart hstop).trans ?_⟩
  have hsched := stopScheduler_of_disarmed hs harmed
  exact congrArg (fun u : State => Host.Outcome.next { u with agenda := rest, cmdStatus := .ok }) hsched

/-! ### The invariant over the shared operations -/

section SharedOperations

variable {s : State}

/-- Taking an error leaves a good state: halted, idle and disarmed (R256). -/
theorem raise_inv (hs : s.Inv) (e : FatalError) (op : Word) : (s.raise e op).Inv where
  memWf := hs.memWf
  armedRuns := nofun
  haltedIdle _ := rfl
  errCodeIff := ⟨fun _ => rfl, fun _ => rfl⟩
  execPendArmed := nofun
  timerPendArmed := nofun
  waitNoExec _ := rfl
  waitPc hwait := absurd rfl hwait
  pcBound := hs.pcBound
  stackBound := hs.stackBound

/-- The self-jump halt, which only an idle machine takes (R139). -/
theorem haltAtSelf_inv (hs : s.Inv) (hidle : s.phase = .idle) : s.haltAtSelf.Inv :=
  { hs with
    armedRuns := nofun
    haltedIdle := fun _ => hidle
    errCodeIff := ⟨nofun, nofun⟩
    execPendArmed := nofun
    timerPendArmed := nofun
    waitNoExec := fun _ => rfl }

theorem retire_inv (hs : s.Inv) : s.retire.Inv := by
  obtain ⟨-, hidle, -, hretire⟩ | ⟨-, hretire⟩ := State.retire_cases s
  · rw [hretire]
    exact haltAtSelf_inv hs hidle
  · rw [hretire]
    exact hs

/-- Clearing `STATUS` ends a halt and a key wait, and with them what the invariant asks of each (R263). -/
theorem clearStatus_inv (hs : s.Inv) : s.clearStatus.Inv :=
  { hs with
    armedRuns := fun _ => rfl
    haltedIdle := fun _ => rfl
    errCodeIff := ⟨nofun, nofun⟩
    waitNoExec := fun hwait => absurd rfl hwait
    waitPc := fun hwait => absurd rfl hwait }

/-- Outside a key wait nothing is asked of `PC` but its bound (R37). -/
theorem inv_with_pc (hs : s.Inv) (hidle : s.phase = .idle) {a : Word} (ha : a.toNat ≤ 0x1002) : State.Inv { s with pc := a } :=
  { hs with
    waitPc := fun hwait => absurd hidle hwait
    pcBound := ha }

theorem inv_with_mem (hs : s.Inv) {m : Memory} (hm : m.wf = true) : State.Inv { s with mem := m } :=
  { hs with memWf := hm }

end SharedOperations

/-! ### The invariant over one instruction -/

/-- What holds where execute begins (R131, R232): the machine is good and idle, the tick is taken, and `PC` has gone past the two
bytes that were fetched, which lie in memory. -/
structure ReadyToExecute (s : State) : Prop extends State.Inv s where
  running : s.halt = .run
  idle : s.phase = .idle
  tickTaken : s.execPend = false
  pcNext : s.pc = s.pc0 + 2
  pcLow : s.pc.toNat ≤ 0x1000

/-- Two bytes were fetched, so the state with the opcode latched is one in which execute may begin (R131). -/
theorem readyToExecute_fetched {s : State} {op : Word} (hs : s.Inv) (hrun : s.halt = .run) (hidle : s.phase = .idle)
    (htaken : s.execPend = false) (hfetch : s.fetchOpcode = some op) : ReadyToExecute (s.fetched op) := by
  have hfits : s.pc.toNat ≤ Config.lastEntry := by
    by_contra hbeyond
    rw [State.fetchOpcode_of_gt s (Nat.lt_of_not_le hbeyond)] at hfetch
    cases hfetch
  have hlast : Config.lastEntry = 0xFFE := rfl
  have hlow : (s.pc + 2).toNat ≤ 0x1000 := by bv_omega
  exact
    { hs with
      waitPc := fun _ => rfl
      pcBound := hlow.trans (by decide)
      running := hrun
      idle := hidle
      tickTaken := htaken
      pcNext := rfl
      pcLow := hlow }

section Execute

variable {s t : State}

theorem skipIf_inv (hs : ReadyToExecute s) (c : Bool) : (s.skipIf c).Inv := by
  have hlow := hs.pcLow
  cases c
  · exact hs.toInv
  · exact inv_with_pc hs.toInv hs.idle (a := s.pc + 2) (by bv_omega)

theorem toNat_addrOf_le (nnn : Addr) : (addrOf nnn).toNat ≤ 0x1002 := by
  have haddr : (addrOf nnn).toNat = nnn.toNat := toNat_widen nnn (by decide)
  omega

/-- The entry `CALL` pushes is the `PC` past the call, and the live entries below it are those of before (R151). -/
theorem push_stackBound (hs : ReadyToExecute s) (hfree : s.sp.val < 16) (k : Fin 16) (hlive : k.val < s.sp.val + 1) :
    ((s.stack.set s.sp.val s.pc hfree)[k]).toNat ≤ 0x1000 := by
  rw [Fin.getElem_fin, Vector.getElem_set]
  split
  next => exact hs.pcLow
  next hbelow => exact hs.stackBound k (by omega)

theorem exec_call_inv {nnn : Addr} (hs : ReadyToExecute s) (h : exec (.call nnn) s = .next t) : t.Inv := by
  obtain ⟨hfree, rfl⟩ | ⟨-, rfl⟩ := exec_call_cases h
  · exact { inv_with_pc hs.toInv hs.idle (toNat_addrOf_le nnn) with stackBound := push_stackBound hs hfree }
  · exact raise_inv hs.toInv _ _

/-- The entry `RET` pops was live, and the entries below it stay live (R152). -/
theorem exec_ret_inv (hs : ReadyToExecute s) (h : exec .ret s = .next t) : t.Inv := by
  obtain ⟨hlive, rfl⟩ | ⟨-, rfl⟩ := exec_ret_cases h
  · have hpopped : (s.stackAt ⟨s.sp.val - 1, by omega⟩).toNat ≤ 0x1000 := hs.stackBound _ (Nat.sub_one_lt_of_lt hlive)
    exact { inv_with_pc hs.toInv hs.idle (hpopped.trans (by decide)) with
      stackBound := fun k hk => hs.stackBound k (Nat.lt_of_lt_of_le hk (Nat.sub_le _ _)) }
  · exact raise_inv hs.toInv _ _

/-- Every instruction leaves a good state: the transfers and the skips by the bound of `PC` and of the stack, the stores by the
canonical form of memory, the key wait by where `PC` stands, the rest because they write nothing the invariant speaks of. -/
theorem exec_inv {i : Instr} (hs : ReadyToExecute s) (h : exec i s = .next t) : t.Inv := by
  cases i with
  | jp nnn => cases h; exact inv_with_pc hs.toInv hs.idle (toNat_addrOf_le nnn)
  | call nnn => exact exec_call_inv hs h
  | ret => exact exec_ret_inv hs h
  | jpV0 nnn =>
    obtain ⟨hlt, rfl⟩ | ⟨-, rfl⟩ := exec_jpV0_cases h
    · exact inv_with_pc hs.toInv hs.idle (hlt.le.trans (by decide))
    · exact raise_inv hs.toInv _ _
  | seImm | sneImm | seReg | sneReg | skp | sknp => cases h; exact skipIf_inv hs _
  | ldB x =>
    obtain ⟨m, hm, ⟨-, rfl⟩ | ⟨-, rfl⟩⟩ := exec_ldB_cases h
    · exact inv_with_mem hs.toInv (hm hs.memWf)
    · exact raise_inv (inv_with_mem hs.toInv (hm hs.memWf)) _ _
  | storeRegs x =>
    obtain ⟨m, hm, ⟨-, rfl⟩ | ⟨-, rfl⟩⟩ := exec_storeRegs_cases h
    · exact { inv_with_mem hs.toInv (hm hs.memWf) with }
    · exact raise_inv (inv_with_mem hs.toInv (hm hs.memWf)) _ _
  | loadRegs x =>
    obtain ⟨v, ⟨-, rfl⟩ | ⟨-, rfl⟩⟩ := exec_loadRegs_cases h
    · exact { hs with }
    · exact raise_inv (s := { s with v := v }) { hs with } _ _
  | drw x y n =>
    obtain ⟨-, rfl⟩ | ⟨-, rows, -, -, rfl⟩ | ⟨-, -, rfl⟩ := exec_drw_cases h
    · exact { hs with }
    · exact { hs with }
    · exact raise_inv hs.toInv _ _
  | ldVxK x =>
    cases h
    exact
      { hs with
        haltedIdle := fun hhalt => absurd hs.running hhalt
        waitNoExec := fun _ => hs.tickTaken
        waitPc := fun _ => hs.pcNext }
  | _ => cases h; exact { hs with }

end Execute

/-! ### The invariant over the events -/

section Events

variable {s t : State}

/-- A fetch fault, an illegal opcode, or an instruction and the halt check (R130). -/
theorem executionStep_inv (hs : s.Inv) (hrun : s.halt = .run) (hidle : s.phase = .idle) (htaken : s.execPend = false)
    (h : s.executionStep = .next t) : t.Inv := by
  cases hfetch : s.fetchOpcode with
  | none =>
    rw [State.executionStep_of_fault hfetch] at h
    cases h
    exact raise_inv (s := { s with pc0 := s.pc }) { hs with waitPc := fun hwait => absurd hidle hwait } _ _
  | some op =>
    have hfetched := readyToExecute_fetched hs hrun hidle htaken hfetch
    cases hdecode : decode op with
    | none =>
      rw [State.executionStep_of_illegal hfetch hdecode] at h
      cases h
      exact raise_inv hfetched.toInv _ _
    | some i =>
      rw [executionStep_of_decode hfetch hdecode] at h
      cases hexec : exec i (s.fetched op) with
      | next u =>
        rw [hexec] at h
        cases h
        exact retire_inv (exec_inv hfetched hexec)
      | fault r => cases r
      | refused r => rw [hexec] at h; cases h

theorem deliver_inv (hs : s.Inv) (h : s.deliver = .next t) : t.Inv := by
  obtain ⟨-, rfl⟩ | ⟨-, -, hidle, hrun, hstep⟩ | ⟨-, -, rfl⟩ := deliver_cases h
  · exact { hs with timerPendArmed := nofun }
  · exact executionStep_inv (s := { s with execPend := false })
      { hs with execPendArmed := nofun, waitNoExec := fun _ => rfl } hrun hidle rfl hstep
  · exact hs

/-- The wait goes on or ends (R213, R214); only an unfinished wait is in a phase other than `IDLE`. -/
theorem keyProgress_inv (hs : s.Inv) : s.keyProgress.Inv := by
  unfold State.keyProgress
  split
  · exact hs
  next hpress =>
    have hwaits : s.phase ≠ .idle := by simp [hpress]
    unfold State.keyLatch
    split
    · exact hs
    · exact
        { hs with
          haltedIdle := fun hhalt => absurd (hs.haltedIdle hhalt) hwaits
          waitNoExec := fun _ => hs.waitNoExec hwaits
          waitPc := fun _ => hs.waitPc hwaits }
  · unfold State.keyComplete
    split
    · exact hs
    · exact retire_inv
        { hs with
          haltedIdle := fun _ => rfl
          waitNoExec := fun hwait => absurd rfl hwait
          waitPc := fun hwait => absurd rfl hwait }

/-- A trigger sets its flag only while armed, and the execution trigger only while idle (R229). -/
theorem fireExec_inv (hs : s.Inv) : s.fireExec.Inv := by
  rw [fireExec_eq]
  exact
    { hs with
      execPendArmed := fun hpend => ((Bool.or_eq_true _ _).mp hpend).elim hs.execPendArmed fun hfires =>
        ((Bool.and_eq_true _ _).mp hfires).1
      waitNoExec := fun hwait => by simp [hs.waitNoExec hwait, hwait] }

theorem fireTimer_inv (hs : s.Inv) : s.fireTimer.Inv := by
  rw [fireTimer_eq]
  exact { hs with timerPendArmed := fun hpend => ((Bool.or_eq_true _ _).mp hpend).elim hs.timerPendArmed id }

theorem powerOn_inv (s : State) : s.powerOn.Inv :=
  { invAfterPowerOn with }

/-- An accepted image lies in memory, so writing it keeps the canonical form (R82, R83). -/
theorem cmdLoad_inv (hs : s.Inv) (start : Word) (bytes : List Byte) : (s.cmdLoad start bytes).Inv := by
  unfold State.cmdLoad
  split
  · exact { hs with }
  split
  · exact { hs with }
  next hfits =>
    have hmem : start.toNat + bytes.length ≤ Config.memSize := (Nat.le_of_not_lt hfits).trans (by decide)
    exact { inv_with_mem hs (Memory.wf_writeList bytes hs.memWf hmem) with }

/-- `reset(entryAddress)` takes an entry where two bytes fit, which is within the bound of `PC` (R292). -/
theorem cmdReset_inv (hs : s.Inv) (entry : Word) : (s.cmdReset entry).Inv := by
  unfold State.cmdReset
  split
  · exact { hs with }
  split
  · exact { hs with }
  next hfits =>
    have hentry : entry.toNat ≤ 0x1002 := (Nat.le_of_not_lt hfits).trans (by decide)
    exact { inv_with_pc (clearStatus_inv hs) rfl hentry with }

theorem cmdStart_inv (hs : s.Inv) : s.cmdStart.Inv := by
  unfold State.cmdStart
  split
  · exact { hs with }
  next hrun =>
    split
    · exact { hs with }
    · exact
        { hs with
          armedRuns := fun _ => not_not.mp hrun
          execPendArmed := nofun
          timerPendArmed := nofun
          waitNoExec := fun _ => rfl }

theorem cmdStop_inv (hs : s.Inv) : s.cmdStop.Inv :=
  { hs with
    armedRuns := nofun
    execPendArmed := nofun
    timerPendArmed := nofun
    waitNoExec := fun _ => rfl }

/-- Whichever event is performed, a good state stays good. -/
theorem perform_inv (hs : s.Inv) {e : Event} (h : s.perform e = .next t) : t.Inv := by
  cases e with
  | deliver => exact deliver_inv hs h
  | keyProgress => cases h; exact keyProgress_inv hs
  | execFire => cases h; exact fireExec_inv hs
  | timerFire => cases h; exact fireTimer_inv hs
  | keys levels => cases h; exact { hs with }
  | powerOn => cases h; exact powerOn_inv s
  | cmdLoad start bytes => cases h; exact cmdLoad_inv hs start bytes
  | cmdReset entry => cases h; exact cmdReset_inv hs entry
  | cmdStart => cases h; exact cmdStart_inv hs
  | cmdStop => cases h; exact cmdStop_inv hs

/-- Taking the event off the agenda, or drawing a free one, changes the model's own fields only. -/
theorem nextEvent_inv (hs : s.Inv) : s.nextEvent.2.Inv := by
  unfold State.nextEvent
  split <;> exact { hs with }

end Events

/-- Settles O59: the next event is taken off, and performing it keeps the invariant, settled or free. -/
theorem stepKeepsInv : Obligations.StepKeepsInv :=
  fun _ _ hs h => perform_inv (nextEvent_inv hs) h

end Sys2Proof.Proofs.TimersScheduler
end

section
/-! PROOFS. The family 60_exceptions: taking an error, which instructions raise and when, and what a halted machine still does. -/

namespace Sys2Proof.Proofs.Exceptions

open Sys2Proof.Machine Sys2Proof.Claims Sys2Proof.Proofs.MemoryAccess
open Sys2Proof.Proofs.FetchDecode Sys2Proof.Proofs.ControlFlow Sys2Proof.Proofs.IndexMemory Sys2Proof.Proofs.DisplayDrawing
open Sys2Proof.Proofs.TimersScheduler

/-! ### Every instruction and every step answers a next state -/

section AnswersNext

variable (s : State)

theorem exec_call_answers_next (nnn : Addr) : ∃ t, exec (.call nnn) s = .next t := by
  obtain hfree | hfull := Nat.lt_or_eq_of_le (Nat.le_of_lt_succ s.sp.isLt)
  · exact ⟨_, exec_call_of_lt hfree⟩
  · exact ⟨_, exec_call_of_full hfull⟩

theorem exec_ret_answers_next : ∃ t, exec .ret s = .next t := by
  obtain hempty | hlive := Nat.eq_zero_or_pos s.sp.val
  · exact ⟨_, exec_ret_of_empty hempty⟩
  · exact ⟨_, exec_ret_of_pos hlive⟩

theorem exec_jpV0_answers_next (nnn : Addr) : ∃ t, exec (.jpV0 nnn) s = .next t := by
  obtain hin | hout := Nat.lt_or_ge (indexedTarget nnn (s.getV 0)).toNat Config.memSize
  · exact ⟨_, exec_jpV0_of_lt hin⟩
  · exact ⟨_, exec_jpV0_of_ge hout⟩

theorem exec_drw_answers_next (x y n : Nibble) : ∃ t, exec (.drw x y n) s = .next t := by
  by_cases hn : n = 0
  · exact ⟨_, exec_drw_of_zero hn⟩
  obtain hbeyond | hfits := Nat.lt_or_ge Config.memSize (s.i.toNat + n.toNat)
  · exact ⟨_, exec_drw_of_gt hn hbeyond⟩
  · obtain ⟨rows, hrows, -⟩ := State.memReadList_of_le s hfits
    exact ⟨_, exec_drw_of_rows hn hrows⟩

theorem exec_ldB_answers_next (x : Nibble) : ∃ t, exec (.ldB x) s = .next t := by
  obtain hbeyond | hfits := Nat.lt_or_ge Config.memSize (s.i.toNat + 3)
  · exact ⟨_, exec_ldB_of_gt hbeyond⟩
  · exact ⟨_, exec_ldB_of_le hfits⟩

theorem exec_storeRegs_answers_next (x : Nibble) : ∃ t, exec (.storeRegs x) s = .next t := by
  obtain hfits | hbeyond := Nat.lt_or_ge (s.i.toNat + x.toNat) Config.memSize
  · exact ⟨_, exec_storeRegs_of_lt hfits⟩
  · exact ⟨_, exec_storeRegs_of_ge hbeyond⟩

theorem exec_loadRegs_answers_next (x : Nibble) : ∃ t, exec (.loadRegs x) s = .next t := by
  cases hload : s.loadRegsFrom s.i 0 (x.toNat + 1) with
  | ok u => exact ⟨_, exec_loadRegs_of_ok hload⟩
  | error u => exact ⟨_, exec_loadRegs_of_error hload⟩

/-- An instruction that can raise answers a next state whether it raises or not (R256); no other has a second outcome. -/
theorem exec_answers_next (i : Instr) : ∃ t, exec i s = .next t := by
  cases i with
  | call nnn => exact exec_call_answers_next s nnn
  | ret => exact exec_ret_answers_next s
  | jpV0 nnn => exact exec_jpV0_answers_next s nnn
  | drw x y n => exact exec_drw_answers_next s x y n
  | ldB x => exact exec_ldB_answers_next s x
  | storeRegs x => exact exec_storeRegs_answers_next s x
  | loadRegs x => exact exec_loadRegs_answers_next s x
  | _ => exact ⟨_, rfl⟩

theorem executionStep_answers_next : ∃ t, s.executionStep = .next t := by
  cases hfetch : s.fetchOpcode with
  | none => exact ⟨_, State.executionStep_of_fault hfetch⟩
  | some op =>
    cases hdecode : decode op with
    | none => exact ⟨_, State.executionStep_of_illegal hfetch hdecode⟩
    | some i =>
      obtain ⟨t, hexec⟩ := exec_answers_next (s.fetched op) i
      exact ⟨_, State.executionStep_of_next hfetch hdecode hexec⟩

/-- Of a delivery only the execution step could stop the machine; the timer tick and the idle delivery are next states. -/
theorem deliver_answers_next : ∃ t, s.deliver = .next t := by
  unfold State.deliver
  split
  · exact ⟨_, rfl⟩
  split
  · exact executionStep_answers_next _
  · exact ⟨_, rfl⟩

theorem perform_answers_next (e : Event) : ∃ t, s.perform e = .next t := by
  cases e with
  | deliver => exact deliver_answers_next s
  | _ => exact ⟨_, rfl⟩

end AnswersNext

/-- Settles O12: a step performs one event, settled or free, and of the events only a delivery runs an instruction. -/
theorem everyStepAnswersNext : Obligations.EveryStepAnswersNext :=
  ⟨fun i s => exec_answers_next s i, fun s => perform_answers_next s.nextEvent.2 s.nextEvent.1⟩

/-! ### Taking an error -/

/-- An idle `STATUS` halted in error reads as the code in bits 4:2 over 2 in bits 1:0 (R43, R250). -/
theorem statusByte_raise (s : State) (e : FatalError) (op : Word) :
    (s.raise e op).statusByte = BitVec.ofNat 8 (2 + 4 * e.code.toNat) := by
  rw [State.statusByte, State.raise_phase, State.raise_errCode, State.raise_halt]
  cases e <;> decide

@[simp] theorem schedBits_raise (s : State) (e : FatalError) (op : Word) : (s.raise e op).schedBits = 0 := by
  rw [State.schedBits, State.raise_timerPend, State.raise_execPend, State.raise_armed]
  decide

/-- Settles O13: the raise field by field, and `SCHED` and `STATUS` read off it. -/
theorem raiseRecordsErrorAndStops : Obligations.RaiseRecordsErrorAndStops := by
  intro s e op
  refine ⟨raise_eq_haltedWith s e op, schedBits_raise s e op, statusByte_raise s e op, ?_⟩
  cases e <;> decide

/-- Settles O9: the two bytes are fetched, and what decode then raises is read off field by field. -/
theorem illegalOpcodeHalts : Obligations.IllegalOpcodeHalts := by
  rintro s rest _ _ htick hpc rfl rfl hdecode
  have hfetch := State.fetchOpcode_of_le (begun s rest) hpc
  rw [step_of_execTickNext htick, State.executionStep_of_illegal hfetch hdecode]
  rfl

/-! ### Which instructions raise -/

@[simp] theorem skipIf_errCode (s : State) (c : Bool) : (s.skipIf c).errCode = s.errCode := by
  cases c <;> rfl

/-- An error code that was not there before came from a raise, which halts the machine (R256). -/
theorem exec_haltErr_of_errCode {i : Instr} {s t : State} {e : FatalError} (h : exec i s = .next t)
    (hnone : s.errCode = none) (herr : t.errCode = some e) : t.halt = .haltErr := by
  obtain ⟨-, -, -, -, -, -, ⟨-, hkept, -⟩ | ⟨hhalt, -⟩⟩ := exec_frame h
  · exact absurd (hnone.symm.trans (hkept.symm.trans herr)) nofun
  · exact hhalt

/-- Settles O14: instruction by instruction, an outcome that does not raise leaves `ERR_CODE` alone, and one that does raise carries
the condition of its row of R250. -/
theorem errorsOnlyAsTabled : Obligations.ErrorsOnlyAsTabled := by
  intro i s t e h _ hnone herr
  refine ⟨exec_haltErr_of_errCode h hnone herr, ?_⟩
  have hclear : s.errCode ≠ some e := by simp [hnone]
  have hsize : Config.memSize = 0xFFF + 1 := rfl
  cases i with
  | jpV0 nnn =>
    obtain ⟨-, rfl⟩ | ⟨hout, rfl⟩ := exec_jpV0_cases h
    · exact absurd herr hclear
    · cases herr
      rw [toNat_indexedTarget] at hout
      exact .inl ⟨rfl, nnn, rfl, hout⟩
  | call nnn =>
    obtain ⟨_, rfl⟩ | ⟨hfull, rfl⟩ := exec_call_cases h
    · exact absurd herr hclear
    · cases herr
      exact .inr (.inl ⟨rfl, ⟨nnn, rfl⟩, hfull⟩)
  | ret =>
    obtain ⟨-, rfl⟩ | ⟨hempty, rfl⟩ := exec_ret_cases h
    · exact absurd herr hclear
    · cases herr
      exact .inr (.inr (.inl ⟨rfl, rfl, hempty⟩))
  | drw x y n =>
    obtain ⟨-, rfl⟩ | ⟨-, _, -, -, rfl⟩ | ⟨hn, hbeyond, rfl⟩ := exec_drw_cases h
    · exact absurd herr hclear
    · exact absurd herr hclear
    · cases herr
      have hpos := toNat_pos_of_ne_zero hn
      exact .inr (.inr (.inr ⟨rfl, .inl ⟨x, y, n, rfl, hpos, by omega⟩⟩))
  | ldB x =>
    obtain ⟨_, -, ⟨-, rfl⟩ | ⟨hbeyond, rfl⟩⟩ := exec_ldB_cases h
    · exact absurd herr hclear
    · cases herr
      exact .inr (.inr (.inr ⟨rfl, .inr (.inl ⟨x, rfl, by omega⟩)⟩))
  | storeRegs x =>
    obtain ⟨_, -, ⟨-, rfl⟩ | ⟨hbeyond, rfl⟩⟩ := exec_storeRegs_cases h
    · exact absurd herr hclear
    · cases herr
      exact .inr (.inr (.inr ⟨rfl, .inr (.inr (.inl ⟨x, rfl, hbeyond⟩))⟩))
  | loadRegs x =>
    obtain ⟨_, ⟨-, rfl⟩ | ⟨hbeyond, rfl⟩⟩ := exec_loadRegs_cases h
    · exact absurd herr hclear
    · cases herr
      exact .inr (.inr (.inr ⟨rfl, .inr (.inr (.inr ⟨x, rfl, hbeyond⟩))⟩))
  | seImm | sneImm | seReg | sneReg | skp | sknp =>
    cases h
    exact absurd ((skipIf_errCode s _).symm.trans herr) hclear
  | _ => cases h; exact absurd herr hclear

/-! ### Which events can end a run in error -/

section HaltErrKept

variable {s : State}

/-- The halt check can end a run, but not in error (R139, R262). -/
theorem haltErr_of_retire (h : s.retire.halt = .haltErr) : s.halt = .haltErr := by
  obtain ⟨-, -, -, hretire⟩ | ⟨-, hretire⟩ := State.retire_cases s
  · rw [hretire] at h
    cases h
  · rwa [hretire] at h

theorem keyLatch_halt (s : State) : s.keyLatch.halt = s.halt := by
  unfold State.keyLatch
  split <;> rfl

theorem haltErr_of_keyComplete (h : s.keyComplete.halt = .haltErr) : s.halt = .haltErr := by
  unfold State.keyComplete at h
  split at h
  · exact h
  · simpa using haltErr_of_retire h

theorem haltErr_of_keyProgress (h : s.keyProgress.halt = .haltErr) : s.halt = .haltErr := by
  unfold State.keyProgress at h
  split at h
  · exact h
  · rwa [keyLatch_halt] at h
  · exact haltErr_of_keyComplete h

theorem fireExec_halt (s : State) : s.fireExec.halt = s.halt := by
  rw [fireExec_eq]

theorem fireTimer_halt (s : State) : s.fireTimer.halt = s.halt := by
  rw [fireTimer_eq]

theorem cmdLoad_halt (s : State) (start : Word) (bytes : List Byte) : (s.cmdLoad start bytes).halt = s.halt := by
  unfold State.cmdLoad
  split
  · rfl
  · split <;> rfl

/-- `reset(entryAddress)` leaves `HALT` alone when it is not accepted, and sets it to `RUN` when it is (R292). -/
theorem haltErr_of_cmdReset {entry : Word} (h : (s.cmdReset entry).halt = .haltErr) : s.halt = .haltErr := by
  unfold State.cmdReset at h
  split at h
  · exact h
  split at h
  · exact h
  · cases h

theorem cmdStart_halt (s : State) : s.cmdStart.halt = s.halt := by
  rw [cmdStart_frame]

end HaltErrKept

/-- Settles O15: event by event, `HALT` is kept or becomes another value than `HALT_ERR`. -/
theorem onlyInstructionsRaiseErrors : Obligations.OnlyInstructionsRaiseErrors := by
  intro s t e rest hagenda htimer hstep herr
  rw [step_of_agenda hagenda] at hstep
  cases e with
  | deliver =>
    rw [State.perform, State.deliver_of_timer (s := { s with agenda := rest }) (htimer rfl)] at hstep
    cases hstep
    exact herr
  | keyProgress => cases hstep; exact haltErr_of_keyProgress (s := { s with agenda := rest }) herr
  | execFire => cases hstep; exact (fireExec_halt { s with agenda := rest }).symm.trans herr
  | timerFire => cases hstep; exact (fireTimer_halt { s with agenda := rest }).symm.trans herr
  | keys levels => cases hstep; exact herr
  | powerOn => cases hstep; cases herr
  | cmdLoad start bytes => cases hstep; exact (cmdLoad_halt { s with agenda := rest } start bytes).symm.trans herr
  | cmdReset entry => cases hstep; exact haltErr_of_cmdReset (s := { s with agenda := rest }) herr
  | cmdStart => cases hstep; exact (cmdStart_halt { s with agenda := rest }).symm.trans herr
  | cmdStop => cases hstep; exact herr

/-! ### A halted machine -/

section Halted

variable {s : State}

theorem fireExec_of_disarmed (harmed : s.armed = false) : s.fireExec = s := if_neg (by simp [harmed])

theorem fireTimer_of_disarmed (harmed : s.armed = false) : s.fireTimer = s := if_neg (by simp [harmed])

theorem keyProgress_of_idle (hidle : s.phase = .idle) : s.keyProgress = s := by
  rw [State.keyProgress, hidle]

/-- An execution tick is taken in `RUN` only (R232). -/
theorem deliver_of_halted (htimer : s.timerPend = false) (hhalt : s.halt ≠ .run) : s.deliver = .next s :=
  State.deliver_of_none htimer (by simp [State.execDue, hhalt])

variable (hs : s.Inv) (hhalt : s.halt ≠ .run)
include hs hhalt

theorem armed_of_halted : s.armed = false := Bool.eq_false_of_not_eq_true (mt hs.armedRuns hhalt)

/-- Where nothing is pending, armed or suspended, the core's own events do nothing (R233, R240, R254). -/
theorem perform_of_halted {e : Event} (he : e = .deliver ∨ e = .keyProgress ∨ e = .execFire ∨ e = .timerFire) :
    s.perform e = .next s := by
  have harmed := armed_of_halted hs hhalt
  rcases he with rfl | rfl | rfl | rfl
  · have htimer : s.timerPend = false :=
      Bool.eq_false_of_not_eq_true (mt hs.timerPendArmed (ne_true_of_eq_false harmed))
    exact deliver_of_halted htimer hhalt
  · exact congrArg Host.Outcome.next (keyProgress_of_idle (hs.haltedIdle hhalt))
  · exact congrArg Host.Outcome.next (fireExec_of_disarmed harmed)
  · exact congrArg Host.Outcome.next (fireTimer_of_disarmed harmed)

end Halted

/-- Settles O16: taking the event off the agenda keeps the invariant, and in a good halted state performing it does nothing. -/
theorem haltedMachineStaysPut : Obligations.HaltedMachineStaysPut := by
  intro s e rest hs hhalt hagenda he
  rw [step_of_agenda hagenda]
  exact perform_of_halted (s := { s with agenda := rest }) { hs with } hhalt he

end Sys2Proof.Proofs.Exceptions
end

section
/-! PROOFS. The family 70_reset_and_hazards: the host's `reset(entryAddress)`. -/

namespace Sys2Proof.Proofs.ResetCommand

open Sys2Proof.Machine

section HostReset

variable {s : State} {entry : Word}

theorem cmdReset_of_armed (harmed : s.armed = true) : s.cmdReset entry = { s with cmdStatus := .refused } := if_pos harmed

theorem cmdReset_of_gt (harmed : s.armed = false) (h : Config.lastEntry < entry.toNat) :
    s.cmdReset entry = { s with cmdStatus := .invalidAddress } := by
  rw [State.cmdReset, if_neg (ne_true_of_eq_false harmed), if_pos h]

theorem cmdReset_of_le (harmed : s.armed = false) (h : entry.toNat ≤ Config.lastEntry) :
    s.cmdReset entry = State.clearStatus { s with pc := entry, cmdStatus := .ok } := by
  rw [State.cmdReset, if_neg (ne_true_of_eq_false harmed), if_neg (Nat.not_lt.mpr h)]

/-- A settled reset command is the next step. -/
theorem step_of_cmdReset {rest : List Event} (h : s.agenda = .cmdReset entry :: rest) :
    step s = .next (State.cmdReset { s with agenda := rest } entry) :=
  step_of_agenda h

end HostReset

@[simp] theorem statusByte_clearStatus (s : State) : s.clearStatus.statusByte = 0 := by
  rw [State.statusByte, State.clearStatus_phase, State.clearStatus_errCode, State.clearStatus_halt]
  decide

/-- Settles O54: the three outcomes of the command; the accepted one clears `STATUS`, which then reads 0. -/
theorem hostResetSetsPcOnly : Obligations.HostResetSetsPcOnly := by
  intro s rest entry hagenda
  rw [step_of_cmdReset hagenda]
  refine ⟨?refused, ?invalid, ?accepted⟩
  case refused =>
    intro harmed
    rw [cmdReset_of_armed (s := { s with agenda := rest }) harmed]
  case invalid =>
    intro harmed hgt
    rw [cmdReset_of_gt (s := { s with agenda := rest }) harmed hgt]
  case accepted =>
    intro harmed hle
    rw [cmdReset_of_le (s := { s with agenda := rest }) harmed hle]
    exact ⟨_, rfl, statusByte_clearStatus _, rfl⟩

end Sys2Proof.Proofs.ResetCommand
end
